-- ==== Sys2Proof/Word.lean ====
section
/-! DEFINITION. The word and byte types of the core (R5, R6, R11): a word is a 16-bit unsigned
value, bit 0 least significant; a byte is what the two streams carry (R28). -/

namespace Sys2Proof

/-- A storage cell's content: memory word, register, stack entry, program counter (R11, R17). -/
abbrev Word := BitVec 16

/-- One element of the input or output stream (R28). -/
abbrev Byte := BitVec 8

end Sys2Proof
end

