-- ==== Sys2Proof/Config.lean ====
section
/-! DEFINITION. The implementation parameters of R5. Every one has a value in the spec, so there is
no free value here; `IMAGE`, `START_PC`, `INIT_REGS` are arguments of reset and only their defaults
stand here, `HALT_ADDR` is an argument of the host's own step (Machine/HostRun.lean). -/

namespace Sys2Proof.Config

/-- `MEM_WORDS` (R5): memory words; valid addresses are 0 to `memWords - 1` (R33). -/
@[reducible, simp] def memWords : Nat := 32768

/-- The modulus of `add` and `mult`, 2 to the power `VALUE_BITS` = 15 (R5, R90). -/
@[reducible, simp] def modulus : Nat := 32768

/-- The largest literal, and the mask that `not` applies (R53, R96). -/
@[reducible, simp] def maxLiteral : Nat := 32767

/-- `NUM_REGS` (R5, R12). -/
@[reducible, simp] def numRegs : Nat := 8

/-- `REG_BASE` (R5): the operand word that denotes register 0. -/
@[reducible, simp] def regBase : Nat := 32768

/-- `MAX_OPERANDS` + 1: the longest instruction in words (R5, R51). -/
@[reducible, simp] def maxLength : Nat := 4

/-- `MEM_FILL` (R5, R31; decision D12): what a memory word reads as that neither the image nor a
store has written. It is `hlt`'s opcode (R50). -/
@[reducible, simp] def memFill : Word := 0

/-- `START_PC` when no start address is given (R5, R31; decision D10). -/
@[reducible, simp] def startPc : Word := 0

/-- `INIT_REGS` when the run surface names no register (R5, R31; decision D11). -/
def initRegs : Vector Word 8 := Vector.replicate 8 0

end Sys2Proof.Config
end

