-- ==== Sys2Proof/Syntax.lean ====
section
/-! DEFINITION. The instruction set as syntax: one constructor per row of spec/opcode_table.json
(R56). Operand letters are the source's: `a` is word 1, `b` word 2, `c` word 3 (R52). -/

namespace Sys2Proof

/-- A register number, 0 to 7 (R12). All eight are equal (R15, R16). -/
abbrev Reg := Fin 8

/-- The class of an operand word (R53). -/
inductive WordClass where
  /-- 0 to 32767: the number itself. -/
  | literal
  /-- 32768 to 32775: a register reference. -/
  | register (n : Reg)
  /-- 32776 to 65535: no meaning; decoding raises `InvalidOperand`. -/
  | outOfDomain
deriving DecidableEq, Repr

/-- An operand in a source position (R52): a literal, which is well-formed only up to 32767 (R55),
or a register reference. -/
inductive Operand where
  | lit (v : Word)
  | reg (n : Reg)
deriving DecidableEq, Repr

/-- The 22 instructions, in opcode order (R56). A result position (R54) is a `Reg`, a source
position an `Operand`. -/
inductive Instr where
  | hlt
  | set (a : Reg) (b : Operand)
  | push (a : Operand)
  | pop (a : Reg)
  | eq (a : Reg) (b c : Operand)
  | gt (a : Reg) (b c : Operand)
  | jmp (a : Operand)
  | jt (a b : Operand)
  | jf (a b : Operand)
  | add (a : Reg) (b c : Operand)
  | mult (a : Reg) (b c : Operand)
  | mod (a : Reg) (b c : Operand)
  | and (a : Reg) (b c : Operand)
  | or (a : Reg) (b c : Operand)
  | not (a : Reg) (b : Operand)
  | rmem (a : Reg) (b : Operand)
  | wmem (a b : Operand)
  | call (a : Operand)
  | ret
  | out (a : Operand)
  /-- The instruction the spec writes `in`; that word is a keyword of Lean (log 13). -/
  | inp (a : Reg)
  | nop
deriving DecidableEq, Repr

/-- The register an instruction names in its result position (R54, first column of R15's table). -/
def Instr.dest : Instr → Option Reg
  | .set a _ | .pop a | .eq a _ _ | .gt a _ _ | .add a _ _ | .mult a _ _ | .mod a _ _
  | .and a _ _ | .or a _ _ | .not a _ | .rmem a _ | .inp a => some a
  | .hlt | .push _ | .jmp _ | .jt _ _ | .jf _ _ | .wmem _ _ | .call _ | .ret | .out _ | .nop => none

/-- The source operands of an instruction, in order (R52, second column of R15's table). -/
def Instr.sources : Instr → List Operand
  | .hlt | .pop _ | .ret | .inp _ | .nop => []
  | .set _ b | .not _ b | .rmem _ b => [b]
  | .push a | .jmp a | .call a | .out a => [a]
  | .jt a b | .jf a b | .wmem a b => [a, b]
  | .eq _ b c | .gt _ b c | .add _ b c | .mult _ b c | .mod _ b c | .and _ b c | .or _ b c => [b, c]

end Sys2Proof
end

