-- ==== Sys2Proof/Machine/State.lean ====
section
/-! DEFINITION. The state of the core (R10) with the two byte streams its instructions touch (R28),
its fault kinds (R104), the refusals, and the state right after reset (R31). -/

namespace Sys2Proof.Machine

/-- The seven synchronous faults (R104). Taking one is a NEXT state whose run status records it
(R113), so no step of this model answers `Host.Outcome.fault`; the names serve the fault record of
R22. Each is safe: it is the stop the spec gives (log 17). -/
inductive Fault where
  /-- Raised by decoding an opcode word of 22 or more (R105). Safe. -/
  | unknownOpcode
  /-- Raised by decoding when an operand word would lie at 32768 or more (R106). Safe. -/
  | truncatedOperand
  /-- Raised by decoding a literal in a result position (R107). Safe. -/
  | nonRegisterResult
  /-- Raised by decoding an operand word of 32776 or more (R108). Safe. -/
  | invalidOperand
  /-- Raised by the opcode fetch, `rmem` and `wmem` at an address of 32768 or more (R109). Safe. -/
  | addressOutOfRange
  /-- Raised by `pop` on an empty stack (R110). Safe. -/
  | stackUnderflow
  /-- Raised by `mod` with a zero divisor (R111). Safe. -/
  | divideByZero
deriving DecidableEq, Repr

/-- Why an action of the model has no meaning. No step answers one. -/
inductive Refusal where
  /-- Raised by an arm of `exec` whose instruction has no meaning yet: there is none. Safe. -/
  | notModelled (mnemonic : String)
  /-- Raised by the host's reset with an image of more than 32768 words, `ImageTooLarge` (R50, R124;
  decision D13): no machine state is produced. Safe. -/
  | imageTooLarge
  /-- Raised by the host's reset from an image file with an odd number of bytes (R39; decision D14):
  no machine state is produced. Safe. -/
  | oddImage
deriving DecidableEq, Repr

/-- The run status (R21), with the fault record `(kind, info)` of R22. -/
inductive RunStatus where
  | running
  | halted
  | faulted (kind : Fault) (info : Word)
deriving DecidableEq, Repr

/-- Memory as the words that differ from `memFill`, by rising address (log 1). A key is a word
address (R33). -/
abbrev Memory := List (Nat × Word)

/-- The complete state (R10), and the streams as lists (R28). -/
structure State where
  /-- The memory, 32768 words (R27). -/
  mem : Memory
  /-- The register file (R12). -/
  x : Vector Word 8
  /-- The execution stack, bottom first: the last element is the top (R10, R23). -/
  stk : List Word
  /-- The program counter (R17). -/
  pc : Word
  /-- The run status (R21). -/
  run : RunStatus
  /-- Input bytes the environment has supplied and no `in` has read, first to be read first (R102). -/
  input : List Byte
  /-- The output stream so far, oldest first (R101). -/
  output : List Byte
deriving DecidableEq, Repr

/-- What the running instruction hands to the loop (R68): the halt flag and the next `pc`. -/
structure Signal where
  halt : Bool
  next : Word
deriving DecidableEq, Repr

/-- The machine after reset with start address 0 and registers 0, the defaults of R31 and R124; with
the empty image, for which they give no default, and no input supplied yet (DESIGN CHOICE, log 4). -/
def State.reset : State where
  mem := []
  x := Config.initRegs
  stk := []
  pc := Config.startPc
  run := .running
  input := []
  output := []

end Sys2Proof.Machine
end

