-- ==== Sys2Proof/Machine/Ops.lean ====
section
/-! DEFINITION. The ports of the core (R32): memory, register file, stack, byte streams; the control
signal; and taking a fault. Every instruction is written over these. -/

namespace Sys2Proof.Machine

/-! ### Memory -/

/-- The word a memory holds at an address: `memFill` where nothing is listed (R31). -/
def Memory.lookup : Memory → Nat → Word
  | [], _ => Config.memFill
  | (k, v) :: m, a => if k = a then v else Memory.lookup m a

/-- Every entry at address `a` removed. -/
def Memory.erase (m : Memory) (a : Nat) : Memory := m.filter (fun c => c.1 ≠ a)

/-- An entry put in front of the first larger address. -/
def Memory.insert : Memory → Nat → Word → Memory
  | [], a, v => [(a, v)]
  | (k, w) :: m, a, v => if a < k then (a, v) :: (k, w) :: m else (k, w) :: Memory.insert m a v

/-- One word overwritten and no other (R35); a word equal to `memFill` is not listed. -/
def Memory.store (m : Memory) (a : Nat) (v : Word) : Memory :=
  if v = Config.memFill then Memory.erase m a else Memory.insert (Memory.erase m a) a v

/-- The canonical form: addresses strictly rising and in range, no word equal to `memFill` listed. -/
abbrev Memory.wf (m : Memory) : Prop :=
  m.Pairwise (fun c d => c.1 < d.1) ∧ ∀ c ∈ m, c.1 < Config.memWords ∧ c.2 ≠ Config.memFill

/-- `Read(addr)` (R34): the word, or the failure at 32768 and above. -/
def Memory.read (m : Memory) (a : Nat) : Option Word :=
  if a < Config.memWords then some (Memory.lookup m a) else none

/-- `MemRead(addr, 1)` (R34). -/
def State.memRead (s : State) (addr : Word) : Option Word := Memory.read s.mem addr.toNat

/-- The memory with one word overwritten, for an address already checked. -/
def State.storeWord (s : State) (a : Nat) (v : Word) : State :=
  { s with mem := Memory.store s.mem a v }

/-- `MemWrite(addr, 1, v)` (R35): the same range check, then one word overwritten, all 16 bits. -/
def State.memWrite (s : State) (addr v : Word) : Option State :=
  if addr.toNat < Config.memWords then some (s.storeWord addr.toNat v) else none

/-! ### Register file -/

/-- `Get(n)` (R13): the register's content; 0 for an `n` outside 0 to 7 (log 11). -/
def State.getReg (s : State) (n : Nat) : Word :=
  if h : n < 8 then s.x[n] else 0

/-- `Set(n, v)` (R14): the register replaced; ignored for an `n` outside 0 to 7 (log 11). -/
def State.setReg (s : State) (n : Nat) (v : Word) : State :=
  { s with x := if h : n < 8 then s.x.set n v else s.x }

/-! ### Stack -/

/-- `Push(v)` (R24): always succeeds. -/
def State.push (s : State) (v : Word) : State := { s with stk := s.stk ++ [v] }

/-- `Pop()` (R25): the top entry and the state without it, or the empty signal, which carries no
value (log 10). -/
def State.pop (s : State) : Option (Word × State) :=
  match s.stk.getLast? with
  | some v => some (v, { s with stk := s.stk.dropLast })
  | none => none

/-! ### Byte streams -/

/-- `OutByte(b)` (R101): always accepted (log 15). -/
def State.outByte (s : State) (b : Byte) : State := { s with output := s.output ++ [b] }

/-- `InByte()` (R102): the first unread byte and the state without it, or none available. -/
def State.inByte (s : State) : Option (Byte × State) :=
  match s.input with
  | b :: rest => some (b, { s with input := rest })
  | [] => none

/-! ### Control signal and result -/

/-- The default signal of an instruction of `len` words (R65 step 2, R69): no halt, `pc + len`
(log 9). -/
def State.defaultSignal (s : State) (len : Nat) : Signal :=
  { halt := false, next := s.pc + BitVec.ofNat 16 len }

/-- Applying the signal (R65 step 4, R68): `pc` takes the next value whether or not the halt flag is
set, then the run status becomes `Halted` if it is. -/
def State.apply (s : State) (sig : Signal) : State :=
  { s with pc := sig.next, run := if sig.halt then .halted else s.run }

/-- An instruction of `len` words that does not transfer control ends (R18, R69). -/
def State.advance (s : State) (len : Nat) : State := s.apply (s.defaultSignal len)

/-- An instruction of `len` words ends by writing `v` to its result register `a` (R54, R69). -/
def State.writeResult (s : State) (a : Reg) (v : Word) (len : Nat) : State :=
  (s.setReg a.val v).advance len

/-! ### Faults -/

/-- The state a fault leaves (R113): the record, and everything else as before the instruction. -/
def State.faultedWith (s : State) (kind : Fault) (info : Word) : State :=
  { s with run := .faulted kind info }

/-- `raise K(info)` (R113, R73). There is no way back from it but reset (R116), so no return
operation stands beside it. -/
def State.raise (s : State) (kind : Fault) (info : Word) : Host.Outcome State Fault Refusal :=
  .next (s.faultedWith kind info)

/-- The numeric code of a fault kind (R104; decision D9). No instruction reads it. -/
def Fault.code : Fault → Nat
  | .unknownOpcode => 1
  | .truncatedOperand => 2
  | .nonRegisterResult => 3
  | .invalidOperand => 4
  | .addressOutOfRange => 5
  | .stackUnderflow => 6
  | .divideByZero => 7

end Sys2Proof.Machine
end

