-- ==== Sys2Proof/Machine/Operands.lean ====
section
/-! DEFINITION. Operand resolution (R67) and the ALU (R90). Sources are resolved in the state before
the instruction, whole 16-bit values (R11, R72; log 8). -/

namespace Sys2Proof.Machine

/-- `resolve` (R67): a literal stands for itself, a register reference for the register's content. -/
def State.resolve (s : State) : Operand → Word
  | .lit v => v
  | .reg n => s.getReg n.val

/-- `add` (R90 (2), R91): the exact sum, reduced modulo 32768. -/
def aluAdd (b c : Word) : Word := BitVec.ofNat 16 ((b.toNat + c.toNat) % Config.modulus)

/-- `mult` (R90 (2), R92): the exact product, reduced modulo 32768. -/
def aluMult (b c : Word) : Word := BitVec.ofNat 16 ((b.toNat * c.toNat) % Config.modulus)

/-- `mod` (R90 (4), R93): the unsigned remainder; none for a zero divisor. -/
def aluMod (b c : Word) : Option Word :=
  if c.toNat = 0 then none else some (BitVec.ofNat 16 (b.toNat % c.toNat))

/-- `and` (R90 (5), R94): all 16 bits. -/
def aluAnd (b c : Word) : Word := b &&& c

/-- `or` (R90 (5), R95): all 16 bits, not masked. -/
def aluOr (b c : Word) : Word := b ||| c

/-- `not` (R90 (6), R96): the complement, then bits 14 to 0 kept. -/
def aluNot (b : Word) : Word := (~~~ b) &&& BitVec.ofNat 16 Config.maxLiteral

/-- The byte `out` emits: bits 7 to 0 (R100). -/
def lowByte (v : Word) : Byte := v.setWidth 8

/-- A byte zero-extended to a word, as `in` delivers it (R103). -/
def zextByte (b : Byte) : Word := b.setWidth 16

end Sys2Proof.Machine
end

