-- ==== Sys2Proof/Machine/Flags.lean ====
section
/-! DEFINITION. The core has no flags (R20): a comparison writes 1 or 0 to a general register and a
conditional jump tests a resolved operand. Those two truth conventions stand here. -/

namespace Sys2Proof.Machine

/-- The result of a comparison: 1 or 0 (R81, R82). -/
def truthWord (p : Bool) : Word := if p then 1 else 0

/-- `eq`'s comparison, all 16 bits (R81). -/
def eqWord (b c : Word) : Word := truthWord (b == c)

/-- `gt`'s comparison: unsigned, strict, `b` greater than `c` (R82). -/
def gtWord (b c : Word) : Word := truthWord (decide (c.toNat < b.toNat))

/-- The condition that `jt` and `jf` test, on all 16 bits: non-zero (R85, R86). -/
def isNonZero (v : Word) : Bool := v != 0

end Sys2Proof.Machine
end

