-- ==== Sys2Proof/Machine/Arithmetic.lean ====
section
/-! DEFINITION. The arithmetic and logic instructions `add`, `mult`, `mod`, `and`, `or`, `not`
(45_arithmetic_logic.md). -/

namespace Sys2Proof.Machine

/-- `add a,b,c` (R91). -/
def execAdd (a : Reg) (b c : Operand) (s : State) : Host.Outcome State Fault Refusal :=
  .next (s.writeResult a (aluAdd (s.resolve b) (s.resolve c)) 4)

/-- `mult a,b,c` (R92). -/
def execMult (a : Reg) (b c : Operand) (s : State) : Host.Outcome State Fault Refusal :=
  .next (s.writeResult a (aluMult (s.resolve b) (s.resolve c)) 4)

/-- `mod a,b,c` (R93, R111): a zero divisor raises `DivideByZero(0)`. -/
def execMod (a : Reg) (b c : Operand) (s : State) : Host.Outcome State Fault Refusal :=
  match aluMod (s.resolve b) (s.resolve c) with
  | some v => .next (s.writeResult a v 4)
  | none => s.raise .divideByZero 0

/-- `and a,b,c` (R94). -/
def execAnd (a : Reg) (b c : Operand) (s : State) : Host.Outcome State Fault Refusal :=
  .next (s.writeResult a (aluAnd (s.resolve b) (s.resolve c)) 4)

/-- `or a,b,c` (R95). -/
def execOr (a : Reg) (b c : Operand) (s : State) : Host.Outcome State Fault Refusal :=
  .next (s.writeResult a (aluOr (s.resolve b) (s.resolve c)) 4)

/-- `not a,b` (R96). -/
def execNot (a : Reg) (b : Operand) (s : State) : Host.Outcome State Fault Refusal :=
  .next (s.writeResult a (aluNot (s.resolve b)) 3)

end Sys2Proof.Machine
end

