-- ==== Sys2Proof/Machine/Compare.lean ====
section
/-! DEFINITION. The comparison instructions `eq` and `gt` (43_compare.md). -/

namespace Sys2Proof.Machine

/-- `eq a,b,c` (R81). -/
def execEq (a : Reg) (b c : Operand) (s : State) : Host.Outcome State Fault Refusal :=
  .next (s.writeResult a (eqWord (s.resolve b) (s.resolve c)) 4)

/-- `gt a,b,c` (R82). -/
def execGt (a : Reg) (b c : Operand) (s : State) : Host.Outcome State Fault Refusal :=
  .next (s.writeResult a (gtWord (s.resolve b) (s.resolve c)) 4)

end Sys2Proof.Machine
end

