-- ==== Sys2Proof/Machine/Control.lean ====
section
/-! DEFINITION. The control-transfer instructions `jmp`, `jt`, `jf`, `call`, `ret`
(44_control_transfer.md). A target is used as it stands and is not checked here (R83). -/

namespace Sys2Proof.Machine

/-- The signal of a control transfer: no halt, `pc <- target` (R68, R83). -/
def transferTo (target : Word) : Signal := { halt := false, next := target }

/-- `jmp a` (R84). -/
def execJmp (a : Operand) (s : State) : Host.Outcome State Fault Refusal :=
  .next (s.apply (transferTo (s.resolve a)))

/-- `jt a,b` (R85): jumps when the condition is not zero. -/
def execJt (a b : Operand) (s : State) : Host.Outcome State Fault Refusal :=
  .next (s.apply (if isNonZero (s.resolve a) then transferTo (s.resolve b) else s.defaultSignal 3))

/-- `jf a,b` (R86): jumps when the condition is zero. -/
def execJf (a b : Operand) (s : State) : Host.Outcome State Fault Refusal :=
  .next (s.apply (if isNonZero (s.resolve a) then s.defaultSignal 3 else transferTo (s.resolve b)))

/-- `call a` (R87): pushes the address of the word after this instruction. -/
def execCall (a : Operand) (s : State) : Host.Outcome State Fault Refusal :=
  .next ((s.push (s.defaultSignal 2).next).apply (transferTo (s.resolve a)))

/-- `ret` (R88): to the popped address, or a halt when the stack is empty. -/
def execRet (s : State) : Host.Outcome State Fault Refusal :=
  match s.pop with
  | some (v, s') => .next (s'.apply (transferTo v))
  | none => .next (s.apply { s.defaultSignal 1 with halt := true })

end Sys2Proof.Machine
end

