-- ==== Sys2Proof/Machine/InputOutput.lean ====
section
/-! DEFINITION. The input and output instructions `out` and `in` (47_io.md). -/

namespace Sys2Proof.Machine

/-- `out a` (R100): appends the low byte to the output. -/
def execOut (a : Operand) (s : State) : Host.Outcome State Fault Refusal :=
  .next ((s.outByte (lowByte (s.resolve a))).advance 2)

/-- `in a` (R103): one byte to the register, zero-extended. With no byte available the machine
waits: still running, nothing changed (R71; log 3). -/
def execInp (a : Reg) (s : State) : Host.Outcome State Fault Refusal :=
  match s.inByte with
  | some (b, s') => .next (s'.writeResult a (zextByte b) 2)
  | none => .next s

end Sys2Proof.Machine
end

