-- ==== Sys2Proof/Machine/MemoryAccess.lean ====
section
/-! DEFINITION. The only load and the only store, `rmem` and `wmem` (46_memory_access.md). The
effective address is a resolved operand, as it stands (R97). -/

namespace Sys2Proof.Machine

/-- `rmem a,b` (R98): an address of 32768 or more raises `AddressOutOfRange(EA)`. -/
def execRmem (a : Reg) (b : Operand) (s : State) : Host.Outcome State Fault Refusal :=
  match s.memRead (s.resolve b) with
  | some v => .next (s.writeResult a v 3)
  | none => s.raise .addressOutOfRange (s.resolve b)

/-- `wmem a,b` (R99): an address of 32768 or more raises `AddressOutOfRange(EA)`. -/
def execWmem (a b : Operand) (s : State) : Host.Outcome State Fault Refusal :=
  match s.memWrite (s.resolve a) (s.resolve b) with
  | some s' => .next (s'.advance 3)
  | none => s.raise .addressOutOfRange (s.resolve a)

end Sys2Proof.Machine
end

