-- ==== Sys2Proof/Machine/MoveStack.lean ====
section
/-! DEFINITION. The register move and stack instructions `set`, `push`, `pop` (42_move_stack.md). -/

namespace Sys2Proof.Machine

/-- `set a,b` (R78). -/
def execSet (a : Reg) (b : Operand) (s : State) : Host.Outcome State Fault Refusal :=
  .next (s.writeResult a (s.resolve b) 3)

/-- `push a` (R79). -/
def execPush (a : Operand) (s : State) : Host.Outcome State Fault Refusal :=
  .next ((s.push (s.resolve a)).advance 2)

/-- `pop a` (R80, R110): an empty stack raises `StackUnderflow(0)`. -/
def execPop (a : Reg) (s : State) : Host.Outcome State Fault Refusal :=
  match s.pop with
  | some (v, s') => .next (s'.writeResult a v 2)
  | none => s.raise .stackUnderflow 0

end Sys2Proof.Machine
end

