-- ==== Sys2Proof/Machine/System.lean ====
section
/-! DEFINITION. The system instructions `hlt` and `nop` (41_system.md). -/

namespace Sys2Proof.Machine

/-- `hlt` (R76): halt; the next `pc` is the default. -/
def execHlt (s : State) : Host.Outcome State Fault Refusal :=
  .next (s.apply { s.defaultSignal 1 with halt := true })

/-- `nop` (R77): only `pc` advances. -/
def execNop (s : State) : Host.Outcome State Fault Refusal :=
  .next (s.advance 1)

end Sys2Proof.Machine
end

