-- ==== Sys2Proof/WellFormed.lean ====
section
/-! DEFINITION. Which terms of `Instr` are instructions of the machine: every literal lies in 0 to
32767 (R53, R55). A register number is 0 to 7 by its type. -/

namespace Sys2Proof

/-- A source operand a word can encode (R53, R55): a literal has bit 15 clear. -/
def Operand.wf : Operand → Bool
  | .lit v => decide (v.toNat ≤ Config.maxLiteral)
  | .reg _ => true

/-- An instruction that some words encode: each of its source operands is well-formed (R52, R58). -/
def Instr.wf (i : Instr) : Bool := i.sources.all Operand.wf

end Sys2Proof
end

