-- ==== Sys2Proof/Decode.lean ====
section
/-! DEFINITION. The decoder, from words to instructions (R51 to R61), and after it the encoder,
written from the same opcode map (R56). The decoder reads a finite word stream: the machine gives it
the words of memory from `pc` upward (Machine/Fetch.lean), a disassembler any stream (R61). -/

namespace Sys2Proof

/-- Why a word stream does not decode. The machine turns each into a fault of R104. -/
inductive DecodeError where
  /-- The stream holds no opcode word (at `pc`: `AddressOutOfRange`, R66; log 12). -/
  | noOpcode
  /-- The opcode word is 22 or more (R57). -/
  | unknownOpcode (op : Word)
  /-- The stream ends before operand word `k`, counted from 1 (R60 step 3, R61). -/
  | truncatedOperand (k : Nat)
  /-- An operand word of 32776 or more (R53). -/
  | invalidOperand (w : Word)
  /-- A literal in a result position (R54). -/
  | nonRegisterResult (w : Word)
deriving DecidableEq, Repr

/-- What a decoder answers: an instruction and the rest of the stream, or the first error. -/
abbrev Decoded := Except DecodeError (Instr × List Word)

/-- The class of an operand word by its value (R53). -/
def classify (w : Word) : WordClass :=
  if w.toNat < Config.regBase then .literal
  else if h : w.toNat - Config.regBase < 8 then .register ⟨w.toNat - Config.regBase, h⟩
  else .outOfDomain

/-- Decoding an operand word in a source position (R60 step 4). -/
def sourceOperand (w : Word) : Except DecodeError Operand :=
  match classify w with
  | .literal => .ok (.lit w)
  | .register n => .ok (.reg n)
  | .outOfDomain => .error (.invalidOperand w)

/-- Decoding an operand word in a result position (R54, R60 step 4): the domain check comes before
the role check. -/
def resultOperand (w : Word) : Except DecodeError Reg :=
  match classify w with
  | .literal => .error (.nonRegisterResult w)
  | .register n => .ok n
  | .outOfDomain => .error (.invalidOperand w)

/-- Format `Z` (R52): no operand word. -/
def decodeZ (i : Instr) (ws : List Word) : Decoded := .ok (i, ws)

/-- Format `S` (R52). -/
def decodeS (mk : Operand → Instr) : List Word → Decoded
  | a :: rest => do
    let a ← sourceOperand a
    return (mk a, rest)
  | ws => .error (.truncatedOperand (ws.length + 1))

/-- Format `R` (R52). -/
def decodeR (mk : Reg → Instr) : List Word → Decoded
  | a :: rest => do
    let a ← resultOperand a
    return (mk a, rest)
  | ws => .error (.truncatedOperand (ws.length + 1))

/-- Format `RS` (R52). Both words are read before either is judged (R60 steps 3 and 4). -/
def decodeRS (mk : Reg → Operand → Instr) : List Word → Decoded
  | a :: b :: rest => do
    let a ← resultOperand a
    let b ← sourceOperand b
    return (mk a b, rest)
  | ws => .error (.truncatedOperand (ws.length + 1))

/-- Format `SS` (R52). -/
def decodeSS (mk : Operand → Operand → Instr) : List Word → Decoded
  | a :: b :: rest => do
    let a ← sourceOperand a
    let b ← sourceOperand b
    return (mk a b, rest)
  | ws => .error (.truncatedOperand (ws.length + 1))

/-- Format `RSS` (R52). -/
def decodeRSS (mk : Reg → Operand → Operand → Instr) : List Word → Decoded
  | a :: b :: c :: rest => do
    let a ← resultOperand a
    let b ← sourceOperand b
    let c ← sourceOperand c
    return (mk a b c, rest)
  | ws => .error (.truncatedOperand (ws.length + 1))

/-- The opcode map (R56): the whole opcode word selects the instruction; 22 and above are unknown and
no operand word is looked at (R57). -/
def decodeOp (op : Word) (ws : List Word) : Decoded :=
  match op.toNat with
  | 0 => decodeZ .hlt ws
  | 1 => decodeRS .set ws
  | 2 => decodeS .push ws
  | 3 => decodeR .pop ws
  | 4 => decodeRSS .eq ws
  | 5 => decodeRSS .gt ws
  | 6 => decodeS .jmp ws
  | 7 => decodeSS .jt ws
  | 8 => decodeSS .jf ws
  | 9 => decodeRSS .add ws
  | 10 => decodeRSS .mult ws
  | 11 => decodeRSS .mod ws
  | 12 => decodeRSS .and ws
  | 13 => decodeRSS .or ws
  | 14 => decodeRS .not ws
  | 15 => decodeRS .rmem ws
  | 16 => decodeSS .wmem ws
  | 17 => decodeS .call ws
  | 18 => decodeZ .ret ws
  | 19 => decodeS .out ws
  | 20 => decodeR .inp ws
  | 21 => decodeZ .nop ws
  | _ => .error (.unknownOpcode op)

/-- Decoding a word stream (R60): one instruction and the rest of the stream, or the first error. -/
def decodeWords : List Word → Decoded
  | [] => .error .noOpcode
  | op :: ws => decodeOp op ws

/-- Decoding a whole stream from its start, one instruction after another (R59, R61); the first
error ends the pass. Each instruction takes a word at least, so `ws.length` rounds are enough. -/
def decodeRounds : Nat → List Word → Except DecodeError (List Instr)
  | _, [] => .ok []
  | 0, _ :: _ => .ok []
  | n + 1, op :: ws => do
    let (i, rest) ← decodeOp op ws
    let is ← decodeRounds n rest
    return i :: is

/-- The instructions of a finite word stream, as the disassembler's pass reads them (R61). -/
def decodeStream (ws : List Word) : Except DecodeError (List Instr) := decodeRounds ws.length ws

/-- The words a table word stands for, laid out in order: bits 15 to 0 are the
opcode word, bits 31 to 16 word 1, and so on; bits from `nbits` up are zero. An all-zero operand word
in a result position is a literal there, so such a row's bare opcode word is refused (R54). -/
def tableWords (nbits w : Nat) : List Word :=
  let v := w % 2 ^ nbits
  [BitVec.ofNat 16 v, BitVec.ofNat 16 (v / 2 ^ 16), BitVec.ofNat 16 (v / 2 ^ 32),
    BitVec.ofNat 16 (v / 2 ^ 48)]

/-- What the decoder reads from a table word (`none` where it refuses). -/
def decodeTableWord (nbits w : Nat) : Option Instr :=
  match decodeWords (tableWords nbits w) with
  | .ok (i, _) => some i
  | .error _ => none

/-- The operand word of a register (R54, R64). -/
def Reg.word (n : Reg) : Word := BitVec.ofNat 16 (Config.regBase + n.val)

/-- The operand word of a source operand (R53). -/
def Operand.word : Operand → Word
  | .lit v => v
  | .reg n => Reg.word n

/-- The words of an instruction (R51, R52, R56). -/
def encode : Instr → List Word
  | .hlt => [0]
  | .set a b => [1, Reg.word a, b.word]
  | .push a => [2, a.word]
  | .pop a => [3, Reg.word a]
  | .eq a b c => [4, Reg.word a, b.word, c.word]
  | .gt a b c => [5, Reg.word a, b.word, c.word]
  | .jmp a => [6, a.word]
  | .jt a b => [7, a.word, b.word]
  | .jf a b => [8, a.word, b.word]
  | .add a b c => [9, Reg.word a, b.word, c.word]
  | .mult a b c => [10, Reg.word a, b.word, c.word]
  | .mod a b c => [11, Reg.word a, b.word, c.word]
  | .and a b c => [12, Reg.word a, b.word, c.word]
  | .or a b c => [13, Reg.word a, b.word, c.word]
  | .not a b => [14, Reg.word a, b.word]
  | .rmem a b => [15, Reg.word a, b.word]
  | .wmem a b => [16, a.word, b.word]
  | .call a => [17, a.word]
  | .ret => [18]
  | .out a => [19, a.word]
  | .inp a => [20, Reg.word a]
  | .nop => [21]

/-- An instruction's length in words (R56, R69). -/
def Instr.length : Instr → Nat
  | .hlt | .ret | .nop => 1
  | .push _ | .pop _ | .jmp _ | .call _ | .out _ | .inp _ => 2
  | .set _ _ | .jt _ _ | .jf _ _ | .not _ _ | .rmem _ _ | .wmem _ _ => 3
  | .eq _ _ _ | .gt _ _ _ | .add _ _ _ | .mult _ _ _ | .mod _ _ _ | .and _ _ _ | .or _ _ _ => 4

/-- The mnemonic of an instruction (R56, R63). -/
def Instr.mnemonic : Instr → String
  | .hlt => "hlt"
  | .set _ _ => "set"
  | .push _ => "push"
  | .pop _ => "pop"
  | .eq _ _ _ => "eq"
  | .gt _ _ _ => "gt"
  | .jmp _ => "jmp"
  | .jt _ _ => "jt"
  | .jf _ _ => "jf"
  | .add _ _ _ => "add"
  | .mult _ _ _ => "mult"
  | .mod _ _ _ => "mod"
  | .and _ _ _ => "and"
  | .or _ _ _ => "or"
  | .not _ _ => "not"
  | .rmem _ _ => "rmem"
  | .wmem _ _ => "wmem"
  | .call _ => "call"
  | .ret => "ret"
  | .out _ => "out"
  | .inp _ => "in"
  | .nop => "nop"

/-- A register's name: `r` and its digit (R62). -/
def Reg.spelling (n : Reg) : String := "r" ++ Nat.repr n.val

/-- A source operand as the listing writes it (R62): a register's name, or the decimal value. -/
def Operand.spelling : Operand → String
  | .lit v => Nat.repr v.toNat
  | .reg n => Reg.spelling n

/-- The operands of an instruction as the listing writes them, in the order `a`, `b`, `c`: the
result register first where there is one. -/
def Instr.operandSpellings (i : Instr) : List String :=
  (i.dest.map Reg.spelling).toList ++ i.sources.map Operand.spelling

/-- An instruction as the listing writes it (R62; decision D24): the mnemonic, then, if there are
operands, one space and the operands separated by commas. -/
def Instr.spelling (i : Instr) : String :=
  match i.operandSpellings with
  | [] => i.mnemonic
  | os => i.mnemonic ++ " " ++ String.intercalate "," os

end Sys2Proof
end

