-- ==== Sys2Proof/Machine/Fetch.lean ====
section
/-! DEFINITION. Fetching and decoding the instruction at an address of memory (R60, R66), and placing
words in memory. -/

namespace Sys2Proof.Machine

/-- The at most `n` words of memory from address `p` upward, up to the end of memory (R61, R66). A
read has no effect (R42), so looking at words the instruction turns out not to have changes nothing
(log 7). -/
def Memory.window (m : Memory) : Nat → Nat → List Word
  | 0, _ => []
  | n + 1, p =>
    match Memory.read m p with
    | some w => w :: Memory.window m n (p + 1)
    | none => []

/-- The fault a decode error at address `p` raises, with its `info` (R60, R104). -/
def decodeFault (p : Word) : DecodeError → Fault × Word
  | .noOpcode => (.addressOutOfRange, p)
  | .unknownOpcode op => (.unknownOpcode, op)
  | .truncatedOperand k => (.truncatedOperand, BitVec.ofNat 16 (p.toNat + k))
  | .invalidOperand w => (.invalidOperand, w)
  | .nonRegisterResult w => (.nonRegisterResult, w)

/-- `decode(p)` over memory (R60): the instruction at `p`, or the fault. -/
def Memory.decodeAt (m : Memory) (p : Word) : Except (Fault × Word) Instr :=
  match decodeWords (Memory.window m Config.maxLength p.toNat) with
  | .ok (i, _) => .ok i
  | .error e => .error (decodeFault p e)

/-- Words stored at consecutive addresses from `p` upward (R50). -/
def Memory.storeWords (m : Memory) : Nat → List Word → Memory
  | _, [] => m
  | p, w :: ws => Memory.storeWords (Memory.store m p w) (p + 1) ws

end Sys2Proof.Machine
end

