-- ==== Sys2Proof/Machine/Step.lean ====
section
/-! DEFINITION. One step of the machine (R65), and the state in which a given word is the next
instruction. -/

namespace Sys2Proof.Machine

/-- The step (R65): a running machine decodes at `pc`, then executes or takes the decode fault. A
halted or faulted machine takes no step and changes nothing (R70; log 2). -/
def step (s : State) : Host.Outcome State Fault Refusal :=
  match s.run with
  | .running =>
    match Memory.decodeAt s.mem s.pc with
    | .ok i => exec i s
    | .error (kind, info) => s.raise kind info
  | .halted => .next s
  | .faulted _ _ => .next s

/-- Where `withFetchWord` places its words: at `pc`, or at 0 where four words do not fit there
(log 6). -/
def State.fetchBase (s : State) : Nat :=
  if s.pc.toNat + Config.maxLength ≤ Config.memWords then s.pc.toNat else 0

/-- The state whose next step fetches and runs the instruction with bits `w` (log 6): its words in
memory where `pc` points, and the machine running. -/
def State.withFetchWord (s : State) (nbits w : Nat) : State :=
  { s with
    mem := Memory.storeWords s.mem s.fetchBase (tableWords nbits w)
    pc := BitVec.ofNat 16 s.fetchBase
    run := .running }

end Sys2Proof.Machine
end

