-- ==== Sys2Proof/Machine/HostPort.lean ====
section
/-! DEFINITION. What the host does to the machine and reads from it between steps (R128): reset with
its arguments (R124), the image file's bytes (R39), supplying input (R102), the memory dump. -/

namespace Sys2Proof.Machine

/-- The words of an image file: little-endian pairs of bytes; none for an odd count (R39). -/
def wordsOfBytes : List Byte → Option (List Word)
  | [] => some []
  | [_] => none
  | lo :: hi :: rest => (wordsOfBytes rest).map (fun ws => (hi ++ lo) :: ws)

/-- Bits 15 to 8 of a word (R39). -/
def highByte (w : Word) : Byte := (w >>> 8).setWidth 8

/-- The bytes of words, low-order byte first (R39, R128). -/
def bytesOfWords (ws : List Word) : List Byte := ws.flatMap (fun w => [lowByte w, highByte w])

/-- Memory right after an image is loaded at 0, `memFill` beyond it (R50, R31). -/
def Memory.ofImage (image : List Word) : Memory := Memory.storeWords [] 0 image

/-- Reset (R124): a new run with the image, the start address and the registers it is given; the
input is what the environment supplies and is not consumed (R31; log 14). An image of more than
32768 words is refused. -/
def State.resetWith (image : List Word) (startPc : Word) (initRegs : Vector Word 8)
    (input : List Byte) : Host.Outcome State Fault Refusal :=
  if image.length ≤ Config.memWords then
    .next { mem := Memory.ofImage image, x := initRegs, stk := [], pc := startPc, run := .running,
            input := input, output := [] }
  else .refused .imageTooLarge

/-- Reset from an image file (R39, R124): an odd number of bytes is refused. -/
def State.resetFromBytes (file : List Byte) (startPc : Word) (initRegs : Vector Word 8)
    (input : List Byte) : Host.Outcome State Fault Refusal :=
  match wordsOfBytes file with
  | some image => State.resetWith image startPc initRegs input
  | none => .refused .oddImage

/-- The host applies reset to a machine (R124, R128): nothing of the old run survives; bytes supplied
and not yet read stay in the input stream (R31; log 14). -/
def State.resetAgain (s : State) (image : List Word) (startPc : Word) (initRegs : Vector Word 8) :
    Host.Outcome State Fault Refusal :=
  State.resetWith image startPc initRegs s.input

/-- The host supplies input: bytes appended to the input stream (R102, R128). -/
def State.supplyInput (s : State) (bs : List Byte) : State := { s with input := s.input ++ bs }

/-- The words of memory from address 0 to 32767, as the host reads them (R36, R128). -/
def State.dumpWords (s : State) : List Word :=
  (List.range Config.memWords).map (Memory.lookup s.mem)

/-- The final memory dump: those words in the image's byte order (R39, R128; log 14). -/
def State.dump (s : State) : List Byte := bytesOfWords s.dumpWords

end Sys2Proof.Machine
end

