-- ==== Sys2Proof/Machine/HostRun.lean ====
section
/-! DEFINITION. The host's stepping with the optional halt address (R122; decision D17), which is no
part of the core. -/

namespace Sys2Proof.Machine

/-- The host's own step: it stops stepping when `pc = HALT_ADDR`, between steps and before the fetch;
otherwise the machine steps. `none` says that the host has stopped (log 14). -/
def hostStep (haltAddr : Option Word) (s : State) : Option (Host.Outcome State Fault Refusal) :=
  if haltAddr = some s.pc then none else some (step s)

end Sys2Proof.Machine
end

