-- ==== Sys2Proof/Safety.lean ====
section
/-! DEFINITION. What a claim may ask of a run (R75, R113): it ended cleanly, it ended in a fault, it
waits, it is reachable. -/

namespace Sys2Proof

open Machine

/-- The clean end of a run (R75): `hlt`, or `ret` on an empty stack. -/
def EndedCleanly (s : State) : Prop := s.run = .halted

/-- The end of a run in failure (R75, R113): never a successful end. -/
def EndedInFault (s : State) : Prop := ∃ kind info, s.run = .faulted kind info

/-- The machine waits (R71): running, a well-formed `in` at `pc`, and no byte available. -/
def Waiting (s : State) : Prop :=
  s.run = .running ∧ s.input = [] ∧ ∃ a, Memory.decodeAt s.mem s.pc = .ok (.inp a)

/-- `t` follows from `s` by steps of the machine and by input the environment supplies between
them (R128). -/
inductive Reaches (s : State) : State → Prop where
  | refl : Reaches s s
  | step {t u : State} (h : Reaches s t) (hu : step t = .next u) : Reaches s u
  | supply {t : State} (h : Reaches s t) (bs : List Byte) :
      Reaches s { t with input := t.input ++ bs }

/-- A safe run from `s`: no state it reaches records a fault. -/
def NeverFaults (s : State) : Prop := ∀ t, Reaches s t → ¬ EndedInFault t

end Sys2Proof
end

