-- ==== Sys2Proof/Certificates/Slice0/Obligations.lean ====
section
/-! DEFINITION. The statements for the provers, from the numbered rules of the spec. The helper
predicates first: what a frame says is written once, in terms of the ports. -/

namespace Sys2Proof.Machine

/-- Every register reads as before (through `Get`). -/
def SameRegs (s t : State) : Prop := ∀ r : Reg, t.getReg r = s.getReg r

/-- Every address reads as before (through `MemRead`), the failing ones included. -/
def SameMem (s t : State) : Prop := ∀ addr : Word, t.memRead addr = s.memRead addr

/-- Both byte streams are as before. -/
def SameStreams (s t : State) : Prop := t.input = s.input ∧ t.output = s.output

/-- The frame of an instruction of `len` words that writes only its result register `a`: every other
register, all memory, the stack, the streams and the run status as before, `pc` at the default. -/
def OnlyResultWritten (a : Reg) (len : Nat) (s t : State) : Prop :=
  (∀ r : Reg, r ≠ a → t.getReg r = s.getReg r) ∧ SameMem s t ∧ t.stk = s.stk ∧ SameStreams s t ∧
    t.run = s.run ∧ t.pc = s.pc + BitVec.ofNat 16 len

/-- The operand count per opcode, as R56 lists it. -/
def operandCounts : List Nat := [0, 2, 1, 1, 3, 3, 1, 2, 2, 3, 3, 3, 3, 3, 2, 2, 2, 1, 0, 1, 1, 0]

/-- The opcodes whose operand `a` is a result position, as R54 lists them (numbers from R56): `set`,
`pop`, `eq`, `gt`, `add`, `mult`, `mod`, `and`, `or`, `not`, `rmem`, `in`. -/
def resultOpcodes : List Nat := [1, 3, 4, 5, 9, 10, 11, 12, 13, 14, 15, 20]

/-- The five instructions that can replace the default `pc` (R18, R69). -/
def isTransfer : Instr → Bool
  | .jmp _ | .jt _ _ | .jf _ _ | .call _ | .ret => true
  | .hlt | .set _ _ | .push _ | .pop _ | .eq _ _ _ | .gt _ _ _ | .add _ _ _ | .mult _ _ _
  | .mod _ _ _ | .and _ _ _ | .or _ _ _ | .not _ _ | .rmem _ _ | .wmem _ _ | .out _ | .inp _
  | .nop => false

/-- The transfer completes with `pc` at the target, still running, and the step after it faults with
`AddressOutOfRange` and the target as `info` (R83). -/
def TransfersThenFaults (i : Instr) (s : State) (target : Word) : Prop :=
  ∃ t, exec i s = .next t ∧ t.pc = target ∧ t.run = .running ∧
    step t = .next { t with run := .faulted .addressOutOfRange target }

/-- The fault record agrees with its kind (the `info` column of R104's table, R106). -/
def FaultRecordInv (s : State) : Prop :=
  match s.run with
  | .running | .halted => True
  | .faulted .unknownOpcode info => 22 ≤ info.toNat
  | .faulted .truncatedOperand info => info.toNat = 32768
  | .faulted .nonRegisterResult info => info.toNat ≤ 32767
  | .faulted .invalidOperand info => 32776 ≤ info.toNat
  | .faulted .addressOutOfRange info => 32768 ≤ info.toNat
  | .faulted .stackUnderflow info => info.toNat = 0
  | .faulted .divideByZero info => info.toNat = 0

end Sys2Proof.Machine

open Sys2Proof Sys2Proof.Machine

/-! ### Encoding -/

/-- Decoding the words of a well-formed instruction gives it back, whatever words follow, with every
operand at every value the encoding admits (R52, R53, R56, R60). -/
def Obligations.DecodeEncodeRoundTrip : Prop :=
  ∀ (i : Instr) (rest : List Word), i.wf = true → decodeWords (encode i ++ rest) = .ok (i, rest)

/-- The words an instruction was decoded from are its encoding: no word stands for an instruction in
two ways, and there are no don't-care bits (R58). -/
def Obligations.DecodedWordsAreTheEncoding : Prop :=
  ∀ (ws rest : List Word) (i : Instr), decodeWords ws = .ok (i, rest) →
    i.wf = true ∧ ws = encode i ++ rest

/-- A stream made of the encodings of well-formed instructions decodes to exactly those instructions,
in order (R59, R61). -/
def Obligations.DecodeStreamOfProgram : Prop :=
  ∀ p : List Instr, (∀ i ∈ p, i.wf = true) → decodeStream (p.flatMap encode) = .ok p

/-- The three classes of an operand word by its value (R53's table), read off the decoding of a source
position; an out-of-domain word is refused in a result position too. The equivalent bit test is what
R53 itself marks as derived from the value ranges. -/
def Obligations.OperandWordClasses : Prop :=
  ∀ w : Word,
    (w.toNat ≤ 32767 → sourceOperand w = .ok (.lit w)) ∧
    (∀ n : Reg, w.toNat = 32768 + n.val → sourceOperand w = .ok (.reg n)) ∧
    (32776 ≤ w.toNat → sourceOperand w = .error (.invalidOperand w) ∧
      resultOperand w = .error (.invalidOperand w)) ∧
    ((∃ o, sourceOperand w = .ok (.lit o)) ↔ w.getLsbD 15 = false) ∧
    ((∃ n, sourceOperand w = .ok (.reg n)) ↔
      w.getLsbD 15 = true ∧ ∀ k, 3 ≤ k → k ≤ 14 → w.getLsbD k = false) ∧
    (sourceOperand w = .error (.invalidOperand w) ↔
      w.getLsbD 15 = true ∧ ∃ k, 3 ≤ k ∧ k ≤ 14 ∧ w.getLsbD k = true) ∧
    (∀ n : Reg, sourceOperand w = .ok (.reg n) → n.val = (w.extractLsb' 0 3).toNat)

/-- The result positions are the first operand of the twelve instructions of R54's list: a literal
there is `NonRegisterResult`, an out-of-domain word `InvalidOperand`, a register reference names the
register written; no other position and no other opcode raises `NonRegisterResult`. -/
def Obligations.ResultOperandIsARegister : Prop :=
  (∀ (op a b c : Word) (rest : List Word), op.toNat ∈ resultOpcodes →
    (a.toNat ≤ 32767 →
      decodeWords (op :: a :: b :: c :: rest) = .error (.nonRegisterResult a)) ∧
    (32776 ≤ a.toNat →
      decodeWords (op :: a :: b :: c :: rest) = .error (.invalidOperand a)) ∧
    (∀ i left, decodeWords (op :: a :: b :: c :: rest) = .ok (i, left) →
      ∃ n : Reg, i.dest = some n ∧ a.toNat = 32768 + n.val) ∧
    (∀ w : Word, 32768 ≤ a.toNat → decodeWords (op :: a :: rest) ≠ .error (.nonRegisterResult w))) ∧
  (∀ (op w : Word) (ws : List Word), op.toNat ∉ resultOpcodes →
    decodeWords (op :: ws) ≠ .error (.nonRegisterResult w))

/-- Known words decode to the instruction they stand for: one of each format and family, from R52,
R56 and R64 (sanity). -/
def Obligations.KnownWordsDecode : Prop :=
  decodeWords [9, 32768, 5, 6, 19, 65, 0] = .ok (.add 0 (.lit 5) (.lit 6), [19, 65, 0]) ∧
  decodeWords [19, 65, 0] = .ok (.out (.lit 65), [0]) ∧
  decodeWords [0] = .ok (.hlt, []) ∧
  decodeWords [20, 32768] = .ok (.inp 0, []) ∧
  decodeWords [1, 32769, 1234] = .ok (.set 1 (.lit 1234), []) ∧
  decodeWords [5, 32770, 32771, 32775] = .ok (.gt 2 (.reg 3) (.reg 7), []) ∧
  decodeWords [7, 32769, 6] = .ok (.jt (.reg 1) (.lit 6), []) ∧
  decodeWords [16, 100, 32768] = .ok (.wmem (.lit 100) (.reg 0), [])

/-- An instruction's encoding starts with its opcode word, whose operand count in R56's list is one
less than the number of words, and that number is the instruction's length (R56, R59). -/
def Obligations.LengthFollowsOperandCount : Prop :=
  ∀ i : Instr, ∃ op ws, encode i = op :: ws ∧ operandCounts[op.toNat]? = some ws.length ∧
    i.length = 1 + ws.length

/-! ### Fetch, decode faults and their order -/

/-- When the words at `pc` decode to an instruction, the step is `exec` of it (R65, R66). That the
decoder is given a window of up to four words from `pc` upward, and not exactly the instruction's own,
is the model's form of the fetch (DEDUCED from R42, log 7); the second clause says what the window
holds. -/
def Obligations.StepRunsDecodedInstruction : Prop :=
  (∀ (s : State) (i : Instr) (rest : List Word), s.run = .running →
    decodeWords (Memory.window s.mem 4 s.pc.toNat) = .ok (i, rest) → step s = exec i s) ∧
  (∀ (m : Memory) (p k : Nat), k < 4 → (Memory.window m 4 p)[k]? = Memory.read m (p + k))

/-- A running machine whose memory holds, from `pc` upward, the words of a well-formed instruction
executes that instruction (R65, R66, R48). -/
def Obligations.StoredEncodingExecutes : Prop :=
  ∀ (s : State) (i : Instr), s.run = .running → i.wf = true →
    (∀ (k : Nat) (w : Word), (encode i)[k]? = some w → Memory.read s.mem (s.pc.toNat + k) = some w) →
    step s = exec i s

/-- `AddressOutOfRange` (R109): the opcode fetch at `pc` of 32768 or more, and `rmem` and `wmem` with
such a resolved address; `info` is the address and nothing else changes. -/
def Obligations.AddressOutOfRangeFaults : Prop :=
  (∀ s : State, s.run = .running → 32768 ≤ s.pc.toNat →
    step s = .next { s with run := .faulted .addressOutOfRange s.pc }) ∧
  (∀ (s : State) (a : Reg) (b : Operand), 32768 ≤ (s.resolve b).toNat →
    exec (.rmem a b) s = .next { s with run := .faulted .addressOutOfRange (s.resolve b) }) ∧
  (∀ (s : State) (a b : Operand), 32768 ≤ (s.resolve a).toNat →
    exec (.wmem a b) s = .next { s with run := .faulted .addressOutOfRange (s.resolve a) })

/-- `UnknownOpcode` (R57, R105): an opcode word of 22 or more faults with that word as `info`,
whatever follows it in memory and wherever memory ends. -/
def Obligations.UnknownOpcodeFaults : Prop :=
  ∀ (s : State) (op : Word), s.run = .running → s.memRead s.pc = some op → 22 ≤ op.toNat →
    step s = .next { s with run := .faulted .unknownOpcode op }

/-- `TruncatedOperand` (R106): a known opcode whose last operand word would lie at 32768 or more
faults with `info` 32768; and the fault arises in that case only, so at an opcode address of 32765 to
32767. -/
def Obligations.TruncatedOperandFaults : Prop :=
  (∀ (s : State) (op : Word) (n : Nat), s.run = .running → s.memRead s.pc = some op →
    operandCounts[op.toNat]? = some n → 32768 ≤ s.pc.toNat + n →
    step s = .next { s with run := .faulted .truncatedOperand 32768 }) ∧
  (∀ (s t : State) (info : Word), s.run = .running → step s = .next t →
    t.run = .faulted .truncatedOperand info →
    info = 32768 ∧ 32765 ≤ s.pc.toNat ∧ s.pc.toNat ≤ 32767 ∧
    ∃ op n, s.memRead s.pc = some op ∧ operandCounts[op.toNat]? = some n ∧ 32768 ≤ s.pc.toNat + n)

/-- The operand checks (R60 step 4, R107, R108, R115): all operand words readable, those before
word `k` in order, then word `k` decides: `InvalidOperand` if it is out of domain, and
`NonRegisterResult` if it is a literal in a result position. -/
def Obligations.OperandChecksInOrder : Prop :=
  ∀ (s : State) (op w : Word) (n k : Nat), s.run = .running → s.memRead s.pc = some op →
    operandCounts[op.toNat]? = some n → s.pc.toNat + n < 32768 → 1 ≤ k → k ≤ n →
    (∀ (j : Nat) (v : Word), 1 ≤ j → j < k → Memory.read s.mem (s.pc.toNat + j) = some v →
      v.toNat ≤ 32775 ∧ (j = 1 → op.toNat ∈ resultOpcodes → 32768 ≤ v.toNat)) →
    Memory.read s.mem (s.pc.toNat + k) = some w →
    (32776 ≤ w.toNat → step s = .next { s with run := .faulted .invalidOperand w }) ∧
    (w.toNat ≤ 32767 → k = 1 → op.toNat ∈ resultOpcodes →
      step s = .next { s with run := .faulted .nonRegisterResult w })

/-- The execution faults and their causes (R109, R110, R111): a step that leaves one of them comes
from `pop` on an empty stack, from `mod` with a zero divisor, or from the fetch, `rmem` or `wmem` at
a bad address. -/
def Obligations.ExecutionFaultsHaveTheirCause : Prop :=
  ∀ (s t : State) (info : Word), s.run = .running → step s = .next t →
    (t.run = .faulted .stackUnderflow info →
      info = 0 ∧ s.stk = [] ∧ ∃ a, Memory.decodeAt s.mem s.pc = .ok (.pop a)) ∧
    (t.run = .faulted .divideByZero info →
      info = 0 ∧ ∃ a b c, Memory.decodeAt s.mem s.pc = .ok (.mod a b c) ∧ s.resolve c = 0) ∧
    (t.run = .faulted .addressOutOfRange info →
      32768 ≤ info.toNat ∧
      (info = s.pc ∨
        (∃ a b, Memory.decodeAt s.mem s.pc = .ok (.rmem a b) ∧ s.resolve b = info) ∨
        (∃ a b, Memory.decodeAt s.mem s.pc = .ok (.wmem a b) ∧ s.resolve a = info)))

/-! ### Ports -/

/-- The memory port (R34, R35, R42): a write at a valid address is read back there and nowhere else,
and touches nothing but memory; at 32768 and above both fail. -/
def Obligations.MemoryPortReadsAndWrites : Prop :=
  ∀ (s : State) (a v : Word),
    (a.toNat ≤ 32767 →
      (∃ w, s.memRead a = some w) ∧
      ∃ t, s.memWrite a v = some t ∧ t.memRead a = some v ∧
        (∀ b, b ≠ a → t.memRead b = s.memRead b) ∧
        SameRegs s t ∧ t.stk = s.stk ∧ t.pc = s.pc ∧ t.run = s.run ∧ SameStreams s t) ∧
    (32768 ≤ a.toNat → s.memRead a = none ∧ s.memWrite a v = none)

/-- The register-file ports (R13, R14): `Set` replaces one register and nothing else; outside 0 to 7
it is ignored and `Get` returns 0. -/
def Obligations.RegisterPortsGetAndSet : Prop :=
  ∀ (s : State) (n : Nat) (v : Word),
    (n ≤ 7 → (s.setReg n v).getReg n = v) ∧
    (∀ m, m ≠ n → (s.setReg n v).getReg m = s.getReg m) ∧
    (8 ≤ n → s.getReg n = 0 ∧ s.setReg n v = s) ∧
    SameMem s (s.setReg n v) ∧ (s.setReg n v).stk = s.stk ∧ (s.setReg n v).pc = s.pc ∧
    (s.setReg n v).run = s.run ∧ SameStreams s (s.setReg n v)

/-- The stack ports (R24, R25): `Push` then `Pop` gives the value and the state before; `Pop` on the
empty stack gives the empty signal; `Push` changes nothing but the stack. -/
def Obligations.StackPortsRoundTrip : Prop :=
  ∀ (s : State) (v : Word),
    (s.push v).pop = some (v, s) ∧
    (s.pop = none ↔ s.stk = []) ∧
    (s.push v).stk = s.stk ++ [v] ∧
    SameRegs s (s.push v) ∧ SameMem s (s.push v) ∧ (s.push v).pc = s.pc ∧
    (s.push v).run = s.run ∧ SameStreams s (s.push v)

/-- Operand resolution (R67), on the operand as it is decoded: a word of 0 to 32767 resolves to
itself, a word of 32768 to 32775 to the register's whole content. -/
def Obligations.ResolveOfRawWord : Prop :=
  ∀ (s : State) (w : Word) (o : Operand), sourceOperand w = .ok o →
    (w.toNat ≤ 32767 → s.resolve o = w) ∧
    (32768 ≤ w.toNat → w.toNat ≤ 32775 ∧ s.resolve o = s.getReg (w.toNat - 32768))

/-! ### The instructions -/

/-- `hlt` (R76). -/
def Obligations.HltHalts : Prop :=
  ∀ s : State, encode .hlt = [0] ∧
    ∃ t, exec .hlt s = .next t ∧ t.run = .halted ∧ t.pc = s.pc + 1 ∧
      SameRegs s t ∧ SameMem s t ∧ t.stk = s.stk ∧ SameStreams s t

/-- `nop` (R77). -/
def Obligations.NopOnlyAdvances : Prop :=
  ∀ s : State, encode .nop = [21] ∧
    ∃ t, exec .nop s = .next t ∧ t.pc = s.pc + 1 ∧ t.run = s.run ∧
      SameRegs s t ∧ SameMem s t ∧ t.stk = s.stk ∧ SameStreams s t

/-- `set a,b` (R78): the whole 16-bit value is copied. -/
def Obligations.SetCopiesTheValue : Prop :=
  ∀ (s : State) (a : Reg) (b : Operand),
    encode (.set a b) = [1, BitVec.ofNat 16 (32768 + a.val), b.word] ∧
    ∃ t, exec (.set a b) s = .next t ∧ t.getReg a = s.resolve b ∧ OnlyResultWritten a 3 s t

/-- `push a` (R79): never fails. -/
def Obligations.PushAppends : Prop :=
  ∀ (s : State) (a : Operand), encode (.push a) = [2, a.word] ∧
    ∃ t, exec (.push a) s = .next t ∧ t.stk = s.stk ++ [s.resolve a] ∧ t.pc = s.pc + 2 ∧
      t.run = s.run ∧ SameRegs s t ∧ SameMem s t ∧ SameStreams s t

/-- `pop a` (R80): the top entry to the register; on an empty stack `StackUnderflow(0)` and nothing
else changes. -/
def Obligations.PopTakesTheTop : Prop :=
  ∀ (s : State) (a : Reg), encode (.pop a) = [3, BitVec.ofNat 16 (32768 + a.val)] ∧
    (∀ st v, s.stk = st ++ [v] →
      ∃ t, exec (.pop a) s = .next t ∧ t.getReg a = v ∧ t.stk = st ∧ t.pc = s.pc + 2 ∧
        t.run = s.run ∧ (∀ r : Reg, r ≠ a → t.getReg r = s.getReg r) ∧ SameMem s t ∧
        SameStreams s t) ∧
    (s.stk = [] → exec (.pop a) s = .next { s with run := .faulted .stackUnderflow 0 })

/-- `eq a,b,c` (R81): 1 or 0, comparing all 16 bits. -/
def Obligations.EqWritesOneOrZero : Prop :=
  ∀ (s : State) (a : Reg) (b c : Operand),
    encode (.eq a b c) = [4, BitVec.ofNat 16 (32768 + a.val), b.word, c.word] ∧
    ∃ t, exec (.eq a b c) s = .next t ∧ OnlyResultWritten a 4 s t ∧
      ((s.resolve b).toNat = (s.resolve c).toNat → t.getReg a = 1) ∧
      ((s.resolve b).toNat ≠ (s.resolve c).toNat → t.getReg a = 0)

/-- `gt a,b,c` (R82): 1 or 0, unsigned and strict, `b` greater than `c`. -/
def Obligations.GtWritesOneOrZero : Prop :=
  ∀ (s : State) (a : Reg) (b c : Operand),
    encode (.gt a b c) = [5, BitVec.ofNat 16 (32768 + a.val), b.word, c.word] ∧
    ∃ t, exec (.gt a b c) s = .next t ∧ OnlyResultWritten a 4 s t ∧
      ((s.resolve c).toNat < (s.resolve b).toNat → t.getReg a = 1) ∧
      ((s.resolve b).toNat ≤ (s.resolve c).toNat → t.getReg a = 0)

/-- `jmp a` (R84): `pc` takes the resolved operand as it stands. -/
def Obligations.JmpSetsPc : Prop :=
  ∀ (s : State) (a : Operand), encode (.jmp a) = [6, a.word] ∧
    ∃ t, exec (.jmp a) s = .next t ∧ t.pc = s.resolve a ∧ t.run = s.run ∧
      SameRegs s t ∧ SameMem s t ∧ t.stk = s.stk ∧ SameStreams s t

/-- `jt a,b` and `jf a,b` (R85, R86): one jumps when the resolved condition is not zero, on all 16
bits, the other when it is zero. -/
def Obligations.JtAndJfTestTheCondition : Prop :=
  ∀ (s : State) (a b : Operand),
    encode (.jt a b) = [7, a.word, b.word] ∧ encode (.jf a b) = [8, a.word, b.word] ∧
    (∃ t, exec (.jt a b) s = .next t ∧
      ((s.resolve a).toNat ≠ 0 → t.pc = s.resolve b) ∧
      ((s.resolve a).toNat = 0 → t.pc = s.pc + 3) ∧
      t.run = s.run ∧ SameRegs s t ∧ SameMem s t ∧ t.stk = s.stk ∧ SameStreams s t) ∧
    (∃ t, exec (.jf a b) s = .next t ∧
      ((s.resolve a).toNat = 0 → t.pc = s.resolve b) ∧
      ((s.resolve a).toNat ≠ 0 → t.pc = s.pc + 3) ∧
      t.run = s.run ∧ SameRegs s t ∧ SameMem s t ∧ t.stk = s.stk ∧ SameStreams s t)

/-- `call a` (R87): the address after the instruction is pushed, then control goes to the target. -/
def Obligations.CallPushesReturnAddress : Prop :=
  ∀ (s : State) (a : Operand), encode (.call a) = [17, a.word] ∧
    ∃ t, exec (.call a) s = .next t ∧ t.stk = s.stk ++ [s.pc + 2] ∧ t.pc = s.resolve a ∧
      t.run = s.run ∧ SameRegs s t ∧ SameMem s t ∧ SameStreams s t

/-- `ret` (R88): to the popped address; on an empty stack a clean halt, not a fault. -/
def Obligations.RetPopsOrHalts : Prop :=
  ∀ s : State, encode .ret = [18] ∧
    (∀ st v, s.stk = st ++ [v] →
      ∃ t, exec .ret s = .next t ∧ t.pc = v ∧ t.stk = st ∧ t.run = s.run ∧
        SameRegs s t ∧ SameMem s t ∧ SameStreams s t) ∧
    (s.stk = [] →
      ∃ t, exec .ret s = .next t ∧ t.run = .halted ∧ t.pc = s.pc + 1 ∧ t.stk = [] ∧
        SameRegs s t ∧ SameMem s t ∧ SameStreams s t)

/-- `add a,b,c` (R91): the exact sum of the resolved values modulo 32768. -/
def Obligations.AddModulo32768 : Prop :=
  ∀ (s : State) (a : Reg) (b c : Operand),
    encode (.add a b c) = [9, BitVec.ofNat 16 (32768 + a.val), b.word, c.word] ∧
    ∃ t, exec (.add a b c) s = .next t ∧ OnlyResultWritten a 4 s t ∧
      (t.getReg a).toNat = ((s.resolve b).toNat + (s.resolve c).toNat) % 32768

/-- `mult a,b,c` (R92): the exact product of the resolved values modulo 32768. -/
def Obligations.MultModulo32768 : Prop :=
  ∀ (s : State) (a : Reg) (b c : Operand),
    encode (.mult a b c) = [10, BitVec.ofNat 16 (32768 + a.val), b.word, c.word] ∧
    ∃ t, exec (.mult a b c) s = .next t ∧ OnlyResultWritten a 4 s t ∧
      (t.getReg a).toNat = ((s.resolve b).toNat * (s.resolve c).toNat) % 32768

/-- `mod a,b,c` (R93): the unsigned remainder; a zero divisor raises `DivideByZero(0)` and nothing
else changes. -/
def Obligations.ModRemainderOrDivideByZero : Prop :=
  ∀ (s : State) (a : Reg) (b c : Operand),
    encode (.mod a b c) = [11, BitVec.ofNat 16 (32768 + a.val), b.word, c.word] ∧
    ((s.resolve c).toNat ≠ 0 →
      ∃ t, exec (.mod a b c) s = .next t ∧ OnlyResultWritten a 4 s t ∧
        (t.getReg a).toNat = (s.resolve b).toNat % (s.resolve c).toNat) ∧
    ((s.resolve c).toNat = 0 →
      exec (.mod a b c) s = .next { s with run := .faulted .divideByZero 0 })

/-- `and a,b,c` and `or a,b,c` (R94, R95): bit by bit over all 16 bits, no mask. -/
def Obligations.AndOrAreBitwise : Prop :=
  ∀ (s : State) (a : Reg) (b c : Operand),
    encode (.and a b c) = [12, BitVec.ofNat 16 (32768 + a.val), b.word, c.word] ∧
    encode (.or a b c) = [13, BitVec.ofNat 16 (32768 + a.val), b.word, c.word] ∧
    (∃ t, exec (.and a b c) s = .next t ∧ OnlyResultWritten a 4 s t ∧
      ∀ k, k < 16 →
        (t.getReg a).getLsbD k = ((s.resolve b).getLsbD k && (s.resolve c).getLsbD k)) ∧
    (∃ t, exec (.or a b c) s = .next t ∧ OnlyResultWritten a 4 s t ∧
      ∀ k, k < 16 →
        (t.getReg a).getLsbD k = ((s.resolve b).getLsbD k || (s.resolve c).getLsbD k))

/-- `not a,b` (R96): the complement of bits 14 to 0, bit 15 clear; as a number, 32767 less the low
15 bits. -/
def Obligations.NotComplementsFifteenBits : Prop :=
  ∀ (s : State) (a : Reg) (b : Operand),
    encode (.not a b) = [14, BitVec.ofNat 16 (32768 + a.val), b.word] ∧
    ∃ t, exec (.not a b) s = .next t ∧ OnlyResultWritten a 3 s t ∧
      (∀ k, k < 15 → (t.getReg a).getLsbD k = !(s.resolve b).getLsbD k) ∧
      (t.getReg a).getLsbD 15 = false ∧
      (t.getReg a).toNat = 32767 - (s.resolve b).toNat % 32768

/-- `rmem a,b` (R98): the whole word at the resolved address; at 32768 and above
`AddressOutOfRange(EA)` and nothing else changes. -/
def Obligations.RmemLoadsTheWord : Prop :=
  ∀ (s : State) (a : Reg) (b : Operand),
    encode (.rmem a b) = [15, BitVec.ofNat 16 (32768 + a.val), b.word] ∧
    ((s.resolve b).toNat ≤ 32767 →
      ∃ t, exec (.rmem a b) s = .next t ∧ OnlyResultWritten a 3 s t ∧
        s.memRead (s.resolve b) = some (t.getReg a)) ∧
    (32768 ≤ (s.resolve b).toNat →
      exec (.rmem a b) s = .next { s with run := .faulted .addressOutOfRange (s.resolve b) })

/-- `wmem a,b` (R99): the whole value at the resolved address, every other address as before; at
32768 and above `AddressOutOfRange(EA)` and nothing else changes. -/
def Obligations.WmemStoresTheWord : Prop :=
  ∀ (s : State) (a b : Operand), encode (.wmem a b) = [16, a.word, b.word] ∧
    ((s.resolve a).toNat ≤ 32767 →
      ∃ t, exec (.wmem a b) s = .next t ∧ t.memRead (s.resolve a) = some (s.resolve b) ∧
        (∀ addr, addr ≠ s.resolve a → t.memRead addr = s.memRead addr) ∧
        t.pc = s.pc + 3 ∧ t.run = s.run ∧ SameRegs s t ∧ t.stk = s.stk ∧ SameStreams s t) ∧
    (32768 ≤ (s.resolve a).toNat →
      exec (.wmem a b) s = .next { s with run := .faulted .addressOutOfRange (s.resolve a) })

/-- `out a` (R100, R101): one byte, the resolved value modulo 256, at the end of the output. -/
def Obligations.OutAppendsLowByte : Prop :=
  ∀ (s : State) (a : Operand), encode (.out a) = [19, a.word] ∧
    ∃ t, exec (.out a) s = .next t ∧
      (∃ b : Byte, t.output = s.output ++ [b] ∧ b.toNat = (s.resolve a).toNat % 256) ∧
      t.input = s.input ∧ t.pc = s.pc + 2 ∧ t.run = s.run ∧
      SameRegs s t ∧ SameMem s t ∧ t.stk = s.stk

/-- `in a` (R103, R71): with a byte available, exactly that byte to the register, zero-extended; with
none, the machine waits and no state changes. That a waiting machine's step answers the same state is
the model's form of the wait (log 3). -/
def Obligations.InReadsOneByteOrWaits : Prop :=
  ∀ (s : State) (a : Reg), encode (.inp a) = [20, BitVec.ofNat 16 (32768 + a.val)] ∧
    (∀ b rest, s.input = b :: rest →
      ∃ t, exec (.inp a) s = .next t ∧ (t.getReg a).toNat = b.toNat ∧ t.input = rest ∧
        t.output = s.output ∧ t.pc = s.pc + 2 ∧ t.run = s.run ∧
        (∀ r : Reg, r ≠ a → t.getReg r = s.getReg r) ∧ SameMem s t ∧ t.stk = s.stk) ∧
    (s.input = [] → exec (.inp a) s = .next s)

/-! ### The whole machine -/

/-- A halted or faulted machine changes nothing (R70). That its step answers the same state is the
model's form of "takes no step" (log 2). -/
def Obligations.StoppedMachineChangesNothing : Prop :=
  ∀ (s : State) (n : Nat), s.run ≠ .running → Host.Core.run core n s = .next s

/-- Every step of every state answers a next state. This is the model's choice of form: a fault is a
next state with a recorded run status and no step is refused (DESIGN CHOICE, log 17), and the step of
a stopped or a waiting machine, which in R70 and R71 takes none, answers the same state (DESIGN
CHOICE, logs 2 and 3). From the spec: every running machine's instruction completes, waits or faults
(R65, R113). -/
def Obligations.StepAlwaysAnswersNext : Prop :=
  ∀ s : State, ∃ t, step s = .next t

/-- Faults are precise (R73, R113): a step of a running machine that records a fault changes nothing
else, and `pc` still holds the address of the faulting instruction. -/
def Obligations.FaultsArePrecise : Prop :=
  ∀ (s t : State) (kind : Fault) (info : Word), s.run = .running → step s = .next t →
    t.run = .faulted kind info →
    t.pc = s.pc ∧ SameRegs s t ∧ t.mem = s.mem ∧ t.stk = s.stk ∧ SameStreams s t

/-- The canonical form of memory is kept by every step, from every state that has it (log 1). -/
def Obligations.MemoryStaysCanonical : Prop :=
  ∀ s t : State, Memory.wf s.mem → step s = .next t → Memory.wf t.mem

/-- The fault record stays in agreement with its kind (R104, R106): every step keeps it, from every
state that has it. -/
def Obligations.FaultRecordStaysLegal : Prop :=
  ∀ s t : State, FaultRecordInv s → step s = .next t → FaultRecordInv t

/-- The state right after reset meets both invariants. The canonical form of memory is the model's own
(DESIGN CHOICE, log 1), and so is the empty image of `State.reset` that meets it (DESIGN CHOICE,
log 4); from the spec is that reset leaves no fault recorded (R31, R124). -/
def Obligations.ResetMeetsTheInvariants : Prop :=
  Memory.wf State.reset.mem ∧ FaultRecordInv State.reset

/-- Only `push`, `call`, `pop` and `ret` change the stack, and only by its top entry (R26). -/
def Obligations.StackChangedOnlyByFour : Prop :=
  ∀ s t : State, step s = .next t → t.stk ≠ s.stk →
    (∃ v, t.stk = s.stk ++ [v] ∧
      ((∃ a, Memory.decodeAt s.mem s.pc = .ok (.push a)) ∨
        ∃ a, Memory.decodeAt s.mem s.pc = .ok (.call a))) ∨
    (∃ v, s.stk = t.stk ++ [v] ∧
      ((∃ a, Memory.decodeAt s.mem s.pc = .ok (.pop a)) ∨
        Memory.decodeAt s.mem s.pc = .ok .ret))

/-- Only `wmem` changes memory, at its resolved address and nowhere else (R35, R36). -/
def Obligations.MemoryChangedOnlyByWmem : Prop :=
  ∀ (s t : State) (addr : Word), step s = .next t → t.memRead addr ≠ s.memRead addr →
    ∃ a b, Memory.decodeAt s.mem s.pc = .ok (.wmem a b) ∧ s.resolve a = addr ∧
      t.memRead addr = some (s.resolve b)

/-- Which registers an instruction writes and reads (R15): it writes none but the one its result
position names, and the value of a register it does not name in a source position reaches nothing. -/
def Obligations.RegisterUseFollowsOperands : Prop :=
  (∀ (i : Instr) (s t : State) (r : Reg), exec i s = .next t → i.dest ≠ some r →
    t.getReg r = s.getReg r) ∧
  (∀ (i : Instr) (s t u : State) (r : Reg) (v : Word), Operand.reg r ∉ i.sources →
    exec i s = .next t → exec i (s.setReg r v) = .next u →
    u.mem = t.mem ∧ u.stk = t.stk ∧ u.pc = t.pc ∧ u.run = t.run ∧ SameStreams t u ∧
    (∀ q : Reg, q ≠ r → u.getReg q = t.getReg q) ∧
    (u.getReg r = t.getReg r ∨ (u.getReg r = v ∧ t.getReg r = s.getReg r)))

/-- The default advance (R18, R69): an instruction that is not one of the five transfers leaves `pc`
at the next instruction, unless it faulted or waits, and then `pc` stays. -/
def Obligations.PcDefaultUnlessTransfer : Prop :=
  ∀ (i : Instr) (s t : State), exec i s = .next t → isTransfer i = false →
    t.pc = s.pc + BitVec.ofNat 16 i.length ∨
    (t.pc = s.pc ∧
      ((∃ kind info, t.run = .faulted kind info) ∨ (∃ a, i = .inp a ∧ s.input = [])))

/-- The default advance does not wrap (R19): an instruction fetched whole ends at or below 32767, so
the default next value is at most 32768, and one that ends at 32767 is followed by a fetch fault. -/
def Obligations.DefaultPcDoesNotWrap : Prop :=
  ∀ (s : State) (i : Instr), Memory.decodeAt s.mem s.pc = .ok i →
    s.pc.toNat + i.length ≤ 32768 ∧
    (s.pc + BitVec.ofNat 16 i.length).toNat = s.pc.toNat + i.length ∧
    (∀ t : State, s.pc.toNat + i.length = 32768 → t.pc = s.pc + BitVec.ofNat 16 i.length →
      t.run = .running → step t = .next { t with run := .faulted .addressOutOfRange 32768 })

/-- The streams (R101, R102): a step appends at most one byte to the output, and then by `out`; it
takes at most the first input byte, and then by `in`, which delivers it. -/
def Obligations.StreamsMoveByOutAndIn : Prop :=
  ∀ s t : State, step s = .next t →
    (t.output = s.output ∨
      ∃ a b, Memory.decodeAt s.mem s.pc = .ok (.out a) ∧ t.output = s.output ++ [b] ∧
        b.toNat = (s.resolve a).toNat % 256) ∧
    (t.input = s.input ∨
      ∃ a b, Memory.decodeAt s.mem s.pc = .ok (.inp a) ∧ s.input = b :: t.input ∧
        (t.getReg a).toNat = b.toNat)

/-- Input the environment supplies between steps changes nothing but the input stream, except that
it lets a waiting machine go on (R71, R102, R128): the step and the supply commute. R128 lets the
host supply at any time during a run; that bytes arrive only between steps is the model's choice
(DESIGN CHOICE, log 20). -/
def Obligations.SupplyingInputCommutes : Prop :=
  ∀ (s t : State) (bs : List Byte), ¬ Waiting s → step s = .next t →
    step (s.supplyInput bs) = .next (t.supplyInput bs)

/-- A running machine halts only by `hlt`, or by `ret` on an empty stack (R21, R75). -/
def Obligations.HaltsOnlyByHltOrRet : Prop :=
  ∀ s t : State, s.run = .running → step s = .next t → t.run = .halted →
    Memory.decodeAt s.mem s.pc = .ok .hlt ∨
    (Memory.decodeAt s.mem s.pc = .ok .ret ∧ s.stk = [])

/-- `ret` resumes after the `call` (R87, R88, R89): from any state whose stack is as `call` left it,
`ret` goes to the word after the `call` and the stack is as before it. -/
def Obligations.CallThenRetResumes : Prop :=
  ∀ (s t u : State) (a : Operand), exec (.call a) s = .next t → u.stk = t.stk →
    ∃ v, exec .ret u = .next v ∧ v.pc = s.pc + 2 ∧ v.stk = s.stk ∧ v.run = u.run

/-- A control transfer to 32768 or more completes, and the next step faults at the fetch with that
address (R83, R112 (e)). -/
def Obligations.BadTargetFaultsAtNextFetch : Prop :=
  ∀ (s : State) (target : Word), s.run = .running → 32768 ≤ target.toNat →
    (∀ a, s.resolve a = target → TransfersThenFaults (.jmp a) s target) ∧
    (∀ a b, (s.resolve a).toNat ≠ 0 → s.resolve b = target →
      TransfersThenFaults (.jt a b) s target) ∧
    (∀ a b, (s.resolve a).toNat = 0 → s.resolve b = target →
      TransfersThenFaults (.jf a b) s target) ∧
    (∀ a, s.resolve a = target → TransfersThenFaults (.call a) s target) ∧
    (∀ st, s.stk = st ++ [target] → TransfersThenFaults .ret s target)

/-- A store is seen by the next fetch of its address, as an opcode word and as an operand word
(R48). -/
def Obligations.StoreSeenByNextFetch : Prop :=
  ∀ (s t u : State) (a b : Operand), (s.resolve a).toNat ≤ 32767 → exec (.wmem a b) s = .next t →
    u.mem = t.mem → u.run = .running →
    (u.pc = s.resolve a → (s.resolve b).toNat = 21 → step u = exec .nop u) ∧
    (u.pc = s.resolve a → 22 ≤ (s.resolve b).toNat →
      step u = .next { u with run := .faulted .unknownOpcode (s.resolve b) }) ∧
    (u.pc.toNat + 1 = (s.resolve a).toNat → u.memRead u.pc = some 6 →
      (s.resolve b).toNat ≤ 32767 → step u = exec (.jmp (.lit (s.resolve b))) u)

/-- The ALU by fixed-width arithmetic (R90 (2), (4), (6)): the 16-bit sum and product reduced modulo
32768 are the exact ones reduced, results of `add`, `mult` and `not` have 15 bits, and the remainder
is that of 16-bit unsigned division. -/
def Obligations.AluAgreesWithFixedWidth : Prop :=
  ∀ b c : Word,
    aluAdd b c = (b + c) &&& 32767 ∧ aluMult b c = (b * c) &&& 32767 ∧
    aluNot b = (b ^^^ 65535) &&& 32767 ∧
    (aluAdd b c).toNat ≤ 32767 ∧ (aluMult b c).toNat ≤ 32767 ∧ (aluNot b).toNat ≤ 32767 ∧
    (c ≠ 0 → aluMod b c = some (b % c) ∧ (b % c).toNat < c.toNat) ∧
    (b.toNat ≤ 32767 → aluNot (aluNot b) = b ∧ aluAdd b (aluAdd (aluNot b) 1) = 0)

/-! ### Reset and the host -/

/-- The state right after the reset that `State.reset` stands for. `START_PC` 0, registers 0, the fill
0, the empty stack and output and the run status are the spec's (R31, R124). `IMAGE` has no default
there: that it is empty, so that every address reads as the fill, is the model's choice (DESIGN CHOICE,
log 4), and so is the empty input stream, which is no part of this statement. -/
def Obligations.ResetState : Prop :=
  State.reset.pc = 0 ∧ State.reset.run = .running ∧ State.reset.stk = [] ∧
    State.reset.output = [] ∧ (∀ r : Reg, State.reset.getReg r = 0) ∧
    (∀ addr : Word, addr.toNat ≤ 32767 → State.reset.memRead addr = some 0)

/-- Reset with its arguments (R124, R50): memory is the image and 0 beyond it, the registers and `pc`
are those given, the stack and the output are empty; an image over 32768 words is refused. That the
input stream is the one the environment has supplied follows R31 (log 14). That the memory is in
canonical form is about the model's own form (DESIGN CHOICE, log 1), of which the rules say
nothing. -/
def Obligations.ResetLoadsTheImage : Prop :=
  ∀ (image : List Word) (startPc : Word) (initRegs : Vector Word 8) (input : List Byte),
    (image.length ≤ 32768 →
      ∃ t, State.resetWith image startPc initRegs input = .next t ∧
        (∀ addr : Word, addr.toNat ≤ 32767 → t.memRead addr = some (image.getD addr.toNat 0)) ∧
        (∀ r : Reg, t.getReg r = initRegs[r]) ∧ t.stk = [] ∧ t.pc = startPc ∧
        t.run = .running ∧ t.output = [] ∧ t.input = input ∧ Memory.wf t.mem) ∧
    (32768 < image.length →
      State.resetWith image startPc initRegs input = .refused .imageTooLarge)

/-- The image file is little-endian (R39): word `i` is byte `2i` plus 256 times byte `2i + 1`; words
written out as bytes read back the same; a file of odd length is refused. -/
def Obligations.ImageFileIsLittleEndian : Prop :=
  (∀ (file : List Byte) (ws : List Word), wordsOfBytes file = some ws →
    file.length = 2 * ws.length ∧
    ∀ (i : Nat) (w : Word) (lo hi : Byte), ws[i]? = some w → file[2 * i]? = some lo →
      file[2 * i + 1]? = some hi → w.toNat = lo.toNat + 256 * hi.toNat) ∧
  (∀ ws : List Word, wordsOfBytes (bytesOfWords ws) = some ws) ∧
  (∀ (file : List Byte) (startPc : Word) (initRegs : Vector Word 8) (input : List Byte),
    file.length % 2 = 1 →
    State.resetFromBytes file startPc initRegs input = .refused .oddImage)

/-- The memory dump, given back as an image, loads the same memory (R39, R50, R128; the dump's byte
order is the spec's decision D17). That the dump can be formed in every state, where R128 reads it
after the machine has stopped, is the model's (DEDUCED, log 14), and that equal contents are equal
lists rests on the model's canonical form (DESIGN CHOICE, log 1). -/
def Obligations.DumpReloadsTheMemory : Prop :=
  ∀ (s : State) (startPc : Word) (initRegs : Vector Word 8) (input : List Byte),
    Memory.wf s.mem → s.dump.length = 65536 ∧
    ∃ t, State.resetFromBytes s.dump startPc initRegs input = .next t ∧ t.mem = s.mem
end

