-- ==== Sys2Proof/Laws/Decode.lean ====
section
/-! SUPPORT. What the decoder's parts do: the classes of a word, the operand decoders on encoded
operands, and the window of memory a fetch looks at. -/

namespace Sys2Proof

theorem classify_literal {w : Word} (h : w.toNat ≤ 32767) : classify w = .literal :=
  if_pos (Nat.lt_succ_of_le h)

theorem classify_register {w : Word} (n : Reg) (h : w.toNat = 32768 + n.val) :
    classify w = .register n := by
  have hn := n.isLt
  have h8 : w.toNat - 32768 < 8 := by omega
  rw [classify, if_neg (by simp only [Config.regBase]; omega)]
  simp only [Config.regBase, h8, dite_true, WordClass.register.injEq]
  exact Fin.ext (by simp only; omega)

theorem classify_outOfDomain {w : Word} (h : 32776 ≤ w.toNat) : classify w = .outOfDomain := by
  have h8 : ¬ w.toNat - 32768 < 8 := by omega
  rw [classify, if_neg (by simp only [Config.regBase]; omega)]
  simp only [Config.regBase, h8, dite_false]

/-- Every word has one of the three classes (R53). -/
theorem classify_cases (w : Word) :
    (w.toNat ≤ 32767 ∧ classify w = .literal) ∨
    (∃ n : Reg, w.toNat = 32768 + n.val ∧ classify w = .register n) ∨
    (32776 ≤ w.toNat ∧ classify w = .outOfDomain) := by
  rcases Nat.lt_or_ge w.toNat 32768 with h | h
  · exact .inl ⟨by omega, classify_literal (by omega)⟩
  · rcases Nat.lt_or_ge w.toNat 32776 with h' | h'
    · have hn : w.toNat = 32768 + (⟨w.toNat - 32768, by omega⟩ : Reg).val := by
        simp only
        omega
      exact .inr (.inl ⟨_, hn, classify_register _ hn⟩)
    · exact .inr (.inr ⟨h', classify_outOfDomain h'⟩)

theorem Reg.word_toNat (n : Reg) : (Reg.word n).toNat = 32768 + n.val := by
  have hn := n.isLt
  simp only [Reg.word, BitVec.toNat_ofNat, Config.regBase]
  omega

theorem Reg.word_of_toNat {w : Word} {n : Reg} (h : w.toNat = 32768 + n.val) : Reg.word n = w :=
  BitVec.eq_of_toNat_eq (by rw [Reg.word_toNat, h])

@[simp] theorem resultOperand_word (n : Reg) : resultOperand (Reg.word n) = .ok n := by
  rw [resultOperand, classify_register n (Reg.word_toNat n)]

theorem sourceOperand_word {o : Operand} (h : o.wf = true) : sourceOperand o.word = .ok o := by
  cases o with
  | lit v =>
    have hv : v.toNat ≤ 32767 := by simpa [Operand.wf] using h
    rw [Operand.word, sourceOperand, classify_literal hv]
  | reg n => rw [Operand.word, sourceOperand, classify_register n (Reg.word_toNat n)]

/-- Everything `sourceOperand` can do (R53, R60 step 4). -/
theorem sourceOperand_cases (w : Word) :
    (∃ o, sourceOperand w = .ok o ∧ o.wf = true ∧ o.word = w ∧ w.toNat ≤ 32775) ∨
    (32776 ≤ w.toNat ∧ sourceOperand w = .error (.invalidOperand w)) := by
  rcases classify_cases w with ⟨h, hc⟩ | ⟨n, h, hc⟩ | ⟨h, hc⟩
  · exact .inl ⟨.lit w, by rw [sourceOperand, hc], by simpa [Operand.wf] using h, rfl, by omega⟩
  · exact .inl ⟨.reg n, by rw [sourceOperand, hc], rfl, Reg.word_of_toNat h, by omega⟩
  · exact .inr ⟨h, by rw [sourceOperand, hc]⟩

/-- Everything `resultOperand` can do (R54, R60 step 4). -/
theorem resultOperand_cases (w : Word) :
    (∃ n, resultOperand w = .ok n ∧ w.toNat = 32768 + n.val ∧ Reg.word n = w) ∨
    (w.toNat ≤ 32767 ∧ resultOperand w = .error (.nonRegisterResult w)) ∨
    (32776 ≤ w.toNat ∧ resultOperand w = .error (.invalidOperand w)) := by
  rcases classify_cases w with ⟨h, hc⟩ | ⟨n, h, hc⟩ | ⟨h, hc⟩
  · exact .inr (.inl ⟨h, by rw [resultOperand, hc]⟩)
  · exact .inl ⟨n, by rw [resultOperand, hc], h, Reg.word_of_toNat h⟩
  · exact .inr (.inr ⟨h, by rw [resultOperand, hc]⟩)

/-! ### What a format decoder answers (R60): the instruction only from the words that encode it -/

theorem decodeS_ok {mk : Operand → Instr} {ws rest : List Word} {i : Instr}
    (h : decodeS mk ws = .ok (i, rest)) :
    ∃ a : Operand, a.wf = true ∧ i = mk a ∧ ws = a.word :: rest := by
  rcases ws with _ | ⟨a, ws⟩
  · simp [decodeS] at h
  rcases sourceOperand_cases a with ⟨o, e, hw, rfl, -⟩ | ⟨-, e⟩
  · simp only [decodeS, e, bind, Except.bind, pure, Except.pure, Except.ok.injEq, Prod.mk.injEq] at h
    exact ⟨o, hw, h.1.symm, by rw [h.2]⟩
  · simp [decodeS, e, bind, Except.bind] at h

theorem decodeR_ok {mk : Reg → Instr} {ws rest : List Word} {i : Instr}
    (h : decodeR mk ws = .ok (i, rest)) :
    ∃ a : Reg, i = mk a ∧ ws = Reg.word a :: rest := by
  rcases ws with _ | ⟨a, ws⟩
  · simp [decodeR] at h
  rcases resultOperand_cases a with ⟨n, e, -, rfl⟩ | ⟨-, e⟩ | ⟨-, e⟩
  · simp only [decodeR, e, bind, Except.bind, pure, Except.pure, Except.ok.injEq, Prod.mk.injEq] at h
    exact ⟨n, h.1.symm, by rw [h.2]⟩
  all_goals simp [decodeR, e, bind, Except.bind] at h

/-- One result operand read, then a source operand by format `S` of what is left. -/
theorem decodeRS_cons {mk : Reg → Operand → Instr} {a b : Word} {ws : List Word} {n : Reg}
    (h : resultOperand a = .ok n) :
    decodeRS mk (a :: b :: ws) = decodeS (mk n) (b :: ws) := by
  simp [decodeRS, decodeS, h, bind, Except.bind]

/-- One source operand read, then another by format `S` of what is left. -/
theorem decodeSS_cons {mk : Operand → Operand → Instr} {a b : Word} {ws : List Word} {o : Operand}
    (h : sourceOperand a = .ok o) :
    decodeSS mk (a :: b :: ws) = decodeS (mk o) (b :: ws) := by
  simp [decodeSS, decodeS, h, bind, Except.bind]

/-- One result operand read, then two source operands by format `SS` of what is left. -/
theorem decodeRSS_cons {mk : Reg → Operand → Operand → Instr} {a b c : Word} {ws : List Word}
    {n : Reg} (h : resultOperand a = .ok n) :
    decodeRSS mk (a :: b :: c :: ws) = decodeSS (mk n) (b :: c :: ws) := by
  simp [decodeRSS, decodeSS, h, bind, Except.bind]

theorem decodeRS_ok {mk : Reg → Operand → Instr} {ws rest : List Word} {i : Instr}
    (h : decodeRS mk ws = .ok (i, rest)) :
    ∃ (a : Reg) (b : Operand), b.wf = true ∧ i = mk a b ∧ ws = Reg.word a :: b.word :: rest := by
  rcases ws with _ | ⟨a, _ | ⟨b, ws⟩⟩
  · simp [decodeRS] at h
  · simp [decodeRS] at h
  rcases resultOperand_cases a with ⟨n, e, -, rfl⟩ | ⟨-, e⟩ | ⟨-, e⟩
  · rw [decodeRS_cons e] at h
    obtain ⟨o, hw, hi, hws⟩ := decodeS_ok h
    exact ⟨n, o, hw, hi, by rw [hws]⟩
  all_goals simp [decodeRS, e, bind, Except.bind] at h

theorem decodeSS_ok {mk : Operand → Operand → Instr} {ws rest : List Word} {i : Instr}
    (h : decodeSS mk ws = .ok (i, rest)) :
    ∃ a b : Operand, a.wf = true ∧ b.wf = true ∧ i = mk a b ∧ ws = a.word :: b.word :: rest := by
  rcases ws with _ | ⟨a, _ | ⟨b, ws⟩⟩
  · simp [decodeSS] at h
  · simp [decodeSS] at h
  rcases sourceOperand_cases a with ⟨o, e, ho, rfl, -⟩ | ⟨-, e⟩
  · rw [decodeSS_cons e] at h
    obtain ⟨o', hw, hi, hws⟩ := decodeS_ok h
    exact ⟨o, o', ho, hw, hi, by rw [hws]⟩
  · simp [decodeSS, e, bind, Except.bind] at h

theorem decodeRSS_ok {mk : Reg → Operand → Operand → Instr} {ws rest : List Word} {i : Instr}
    (h : decodeRSS mk ws = .ok (i, rest)) :
    ∃ (a : Reg) (b c : Operand), b.wf = true ∧ c.wf = true ∧ i = mk a b c ∧
      ws = Reg.word a :: b.word :: c.word :: rest := by
  rcases ws with _ | ⟨a, _ | ⟨b, _ | ⟨c, ws⟩⟩⟩
  · simp [decodeRSS] at h
  · simp [decodeRSS] at h
  · simp [decodeRSS] at h
  rcases resultOperand_cases a with ⟨n, e, -, rfl⟩ | ⟨-, e⟩ | ⟨-, e⟩
  · rw [decodeRSS_cons e] at h
    obtain ⟨o, o', ho, ho', hi, hws⟩ := decodeSS_ok h
    exact ⟨n, o, o', ho, ho', hi, by rw [hws]⟩
  all_goals simp [decodeRSS, e, bind, Except.bind] at h

/-- The opcode word alone selects one of the 22 instructions or none (R56, R57). -/
theorem decodeOp_unknown {op : Word} (h : 22 ≤ op.toNat) (ws : List Word) :
    decodeOp op ws = .error (.unknownOpcode op) := by
  unfold decodeOp
  split <;> first | rfl | omega

/-! ### What a format decoder answers when it refuses (R60, R115) -/

/-- An error of operand validation, with the word that raises it (R53, R54). -/
inductive OperandError : DecodeError → Prop where
  | invalid {w : Word} (h : 32776 ≤ w.toNat) : OperandError (.invalidOperand w)
  | nonRegister {w : Word} (h : w.toNat ≤ 32767) : OperandError (.nonRegisterResult w)

/-- How a format of `n` operand words refuses the words `ws`: too few words, or a bad operand. -/
def FormatError (n : Nat) (ws : List Word) (e : DecodeError) : Prop :=
  (e = .truncatedOperand (ws.length + 1) ∧ ws.length < n) ∨ OperandError e

theorem decodeS_error {mk : Operand → Instr} {ws : List Word} {e : DecodeError}
    (h : decodeS mk ws = .error e) : FormatError 1 ws e := by
  rcases ws with _ | ⟨a, ws⟩
  · simp only [decodeS, Except.error.injEq] at h
    exact .inl ⟨h.symm, Nat.zero_lt_one⟩
  rcases sourceOperand_cases a with ⟨o, ho, -⟩ | ⟨hw, ho⟩
  · simp [decodeS, ho, bind, Except.bind, pure, Except.pure] at h
  · simp only [decodeS, ho, bind, Except.bind, Except.error.injEq] at h
    exact .inr (h ▸ .invalid hw)

theorem decodeR_error {mk : Reg → Instr} {ws : List Word} {e : DecodeError}
    (h : decodeR mk ws = .error e) : FormatError 1 ws e := by
  rcases ws with _ | ⟨a, ws⟩
  · simp only [decodeR, Except.error.injEq] at h
    exact .inl ⟨h.symm, Nat.zero_lt_one⟩
  rcases resultOperand_cases a with ⟨n, ho, -⟩ | ⟨hw, ho⟩ | ⟨hw, ho⟩
  · simp [decodeR, ho, bind, Except.bind, pure, Except.pure] at h
  · simp only [decodeR, ho, bind, Except.bind, Except.error.injEq] at h
    exact .inr (h ▸ .nonRegister hw)
  · simp only [decodeR, ho, bind, Except.bind, Except.error.injEq] at h
    exact .inr (h ▸ .invalid hw)

theorem decodeRS_error {mk : Reg → Operand → Instr} {ws : List Word} {e : DecodeError}
    (h : decodeRS mk ws = .error e) : FormatError 2 ws e := by
  rcases ws with _ | ⟨a, _ | ⟨b, ws⟩⟩
  · simp only [decodeRS, Except.error.injEq] at h
    exact .inl ⟨h.symm, Nat.zero_lt_two⟩
  · simp only [decodeRS, Except.error.injEq] at h
    exact .inl ⟨h.symm, Nat.one_lt_two⟩
  rcases resultOperand_cases a with ⟨n, ho, -⟩ | ⟨hw, ho⟩ | ⟨hw, ho⟩
  · rw [decodeRS_cons ho] at h
    rcases decodeS_error h with ⟨-, hl⟩ | he
    · exact absurd hl (by simp)
    · exact .inr he
  · simp only [decodeRS, ho, bind, Except.bind, Except.error.injEq] at h
    exact .inr (h ▸ .nonRegister hw)
  · simp only [decodeRS, ho, bind, Except.bind, Except.error.injEq] at h
    exact .inr (h ▸ .invalid hw)

theorem decodeSS_error {mk : Operand → Operand → Instr} {ws : List Word} {e : DecodeError}
    (h : decodeSS mk ws = .error e) : FormatError 2 ws e := by
  rcases ws with _ | ⟨a, _ | ⟨b, ws⟩⟩
  · simp only [decodeSS, Except.error.injEq] at h
    exact .inl ⟨h.symm, Nat.zero_lt_two⟩
  · simp only [decodeSS, Except.error.injEq] at h
    exact .inl ⟨h.symm, Nat.one_lt_two⟩
  rcases sourceOperand_cases a with ⟨o, ho, -⟩ | ⟨hw, ho⟩
  · rw [decodeSS_cons ho] at h
    rcases decodeS_error h with ⟨-, hl⟩ | he
    · exact absurd hl (by simp)
    · exact .inr he
  · simp only [decodeSS, ho, bind, Except.bind, Except.error.injEq] at h
    exact .inr (h ▸ .invalid hw)

theorem decodeRSS_error {mk : Reg → Operand → Operand → Instr} {ws : List Word} {e : DecodeError}
    (h : decodeRSS mk ws = .error e) : FormatError 3 ws e := by
  rcases ws with _ | ⟨a, _ | ⟨b, _ | ⟨c, ws⟩⟩⟩
  all_goals try
    simp only [decodeRSS, Except.error.injEq] at h
    exact .inl ⟨h.symm, by simp⟩
  rcases resultOperand_cases a with ⟨n, ho, -⟩ | ⟨hw, ho⟩ | ⟨hw, ho⟩
  · rw [decodeRSS_cons ho] at h
    rcases decodeSS_error h with ⟨-, hl⟩ | he
    · exact absurd hl (by simp)
    · exact .inr he
  · simp only [decodeRSS, ho, bind, Except.bind, Except.error.injEq] at h
    exact .inr (h ▸ .nonRegister hw)
  · simp only [decodeRSS, ho, bind, Except.bind, Except.error.injEq] at h
    exact .inr (h ▸ .invalid hw)

/-- Everything `decodeOp` can refuse with: an unknown opcode, or an error of one of the formats. -/
theorem decodeOp_error {op : Word} {ws : List Word} {e : DecodeError}
    (h : decodeOp op ws = .error e) :
    (e = .unknownOpcode op ∧ 22 ≤ op.toNat) ∨ ∃ n, n ≤ 3 ∧ FormatError n ws e := by
  rcases Nat.lt_or_ge op.toNat 22 with hlt | hge
  · unfold decodeOp at h
    split at h
    case h_23 =>
      exfalso
      generalize op.toNat = k at *
      interval_cases k <;> simp_all
    all_goals first
      | exact .inr ⟨1, by omega, decodeS_error h⟩
      | exact .inr ⟨1, by omega, decodeR_error h⟩
      | exact .inr ⟨2, by omega, decodeRS_error h⟩
      | exact .inr ⟨2, by omega, decodeSS_error h⟩
      | exact .inr ⟨3, by omega, decodeRSS_error h⟩
      | exact absurd h (by simp [decodeZ])
  · rw [decodeOp_unknown hge, Except.error.injEq] at h
    exact .inl ⟨h.symm, hge⟩

namespace Machine

/-- The window ends after `n` words or where memory ends (R66). -/
theorem Memory.window_length (m : Memory) (n p : Nat) :
    (Memory.window m n p).length = min n (32768 - p) := by
  induction n generalizing p with
  | zero => simp [Memory.window]
  | succ n ih =>
    unfold Memory.window
    rcases Nat.lt_or_ge p 32768 with hp | hp
    · simp only [Memory.read, Config.memWords, hp, if_true, List.length_cons, ih]
      omega
    · simp only [Memory.read, Config.memWords, Nat.not_lt.mpr hp, if_false, List.length_nil]
      omega

/-- Word `k` of the window is the word at `p + k` (R66); the window ends where memory ends. -/
theorem Memory.window_getElem? (m : Memory) {n k : Nat} (p : Nat) (h : k < n) :
    (Memory.window m n p)[k]? = Memory.read m (p + k) := by
  induction n generalizing p k with
  | zero => omega
  | succ n ih =>
    unfold Memory.window
    rcases Nat.lt_or_ge p 32768 with hp | hp
    · simp only [Memory.read, Config.memWords, hp, if_true]
      cases k with
      | zero => simp [hp]
      | succ k =>
        rw [List.getElem?_cons_succ, ih (p + 1) (by omega)]
        simp only [Memory.read, Config.memWords, Nat.add_assoc, Nat.add_comm 1 k]
    · have hk : ¬ p + k < 32768 := by omega
      simp [Memory.read, Nat.not_lt.mpr hp, hk]

end Machine

end Sys2Proof
end

