-- ==== Sys2Proof/Laws/Memory.lean ====
section
/-! SUPPORT. The laws of memory: read after write, the canonical form and that every memory operation
keeps it, and that canonical memories are equal when they read alike. -/

namespace Sys2Proof.Machine

/-! ### Lookup -/

@[simp] theorem Memory.lookup_nil (a : Nat) : Memory.lookup [] a = 0 := rfl

theorem Memory.lookup_eq_fill {m : Memory} {a : Nat} (h : ∀ c ∈ m, c.1 ≠ a) :
    Memory.lookup m a = 0 := by
  induction m with
  | nil => rfl
  | cons c m ih =>
    rw [Memory.lookup, if_neg (h c (by simp)), ih fun d hd => h d (by simp [hd])]

theorem Memory.lookup_mem {m : Memory} (h : m.Pairwise (fun c d => c.1 < d.1)) {a : Nat} {v : Word}
    (hm : (a, v) ∈ m) : Memory.lookup m a = v := by
  induction m with
  | nil => cases hm
  | cons c m ih =>
    rw [List.pairwise_cons] at h
    rcases List.mem_cons.mp hm with rfl | hm
    · simp [Memory.lookup]
    · rw [Memory.lookup, if_neg (Nat.ne_of_lt (h.1 _ hm)), ih h.2 hm]

theorem Memory.lookup_erase_same (m : Memory) (a : Nat) :
    Memory.lookup (Memory.erase m a) a = 0 :=
  Memory.lookup_eq_fill fun c hc => by simpa using (List.mem_filter.mp hc).2

theorem Memory.lookup_erase_other (m : Memory) {a b : Nat} (h : b ≠ a) :
    Memory.lookup (Memory.erase m a) b = Memory.lookup m b := by
  induction m with
  | nil => rfl
  | cons c m ih =>
    by_cases hc : c.1 = a
    · have hb : c.1 ≠ b := fun hb => h (hb ▸ hc)
      simpa [Memory.erase, hc, Memory.lookup, if_neg hb, Ne.symm h] using ih
    · by_cases hb : c.1 = b
      · simp [Memory.erase, Memory.lookup, hb, h]
      · simpa [Memory.erase, Memory.lookup, hc, hb] using ih

theorem Memory.lookup_insert (m : Memory) {a : Nat} (v : Word) (h : ∀ c ∈ m, c.1 ≠ a) (b : Nat) :
    Memory.lookup (Memory.insert m a v) b = if b = a then v else Memory.lookup m b := by
  induction m with
  | nil => simp [Memory.insert, Memory.lookup, eq_comm]
  | cons c m ih =>
    have hc : c.1 ≠ a := h c (by simp)
    have ih := ih fun d hd => h d (by simp [hd])
    by_cases hlt : a < c.1
    · simp [Memory.insert, hlt, Memory.lookup, eq_comm]
    · by_cases hb : c.1 = b
      · have hba : b ≠ a := hb ▸ hc
        simp [Memory.insert, show ¬ a < b by omega, Memory.lookup, hb, hba]
      · simp [Memory.insert, hlt, Memory.lookup, hb, ih]

/-- Read after write (R35): the stored word at its address, every other address as before. -/
theorem Memory.lookup_store (m : Memory) (a : Nat) (v : Word) (b : Nat) :
    Memory.lookup (Memory.store m a v) b = if b = a then v else Memory.lookup m b := by
  have hne : ∀ c ∈ Memory.erase m a, c.1 ≠ a := fun c hc => by
    simpa using (List.mem_filter.mp hc).2
  unfold Memory.store
  split
  · rename_i hv
    by_cases hb : b = a
    · rw [if_pos hb, hb, Memory.lookup_erase_same]
      exact hv.symm
    · rw [if_neg hb, Memory.lookup_erase_other m hb]
  · rw [Memory.lookup_insert _ _ hne]
    by_cases hb : b = a
    · simp [hb]
    · simp [hb, Memory.lookup_erase_other m hb]

@[simp] theorem Memory.lookup_store_same (m : Memory) (a : Nat) (v : Word) :
    Memory.lookup (Memory.store m a v) a = v := by
  rw [Memory.lookup_store, if_pos rfl]

theorem Memory.lookup_store_other (m : Memory) {a b : Nat} (v : Word) (h : b ≠ a) :
    Memory.lookup (Memory.store m a v) b = Memory.lookup m b := by
  rw [Memory.lookup_store, if_neg h]

/-- Words stored from `p` upward: each at its address, every other address as before. -/
theorem Memory.lookup_storeWords (m : Memory) (p : Nat) (ws : List Word) (b : Nat) :
    Memory.lookup (Memory.storeWords m p ws) b =
      if p ≤ b ∧ b < p + ws.length then ws.getD (b - p) 0 else Memory.lookup m b := by
  induction ws generalizing m p with
  | nil =>
    have h : ¬ (p ≤ b ∧ b < p) := by omega
    simp [Memory.storeWords, h]
  | cons w ws ih =>
    rw [Memory.storeWords, ih, Memory.lookup_store, List.length_cons]
    by_cases hb : b = p
    · subst hb
      rw [if_neg (by omega), if_pos rfl, if_pos (by omega), Nat.sub_self, List.getD_cons_zero]
    · by_cases hin : p + 1 ≤ b ∧ b < p + 1 + ws.length
      · rw [if_pos hin, if_pos (by omega), show b - p = (b - (p + 1)) + 1 by omega,
          List.getD_cons_succ]
      · rw [if_neg hin, if_neg hb, if_neg (by omega)]

/-! ### The canonical form -/

theorem Memory.wf_nil : Memory.wf [] := by simp [Memory.wf]

theorem Memory.wf_erase {m : Memory} (h : Memory.wf m) (a : Nat) : Memory.wf (Memory.erase m a) :=
  ⟨h.1.filter _, fun c hc => h.2 c (List.mem_filter.mp hc).1⟩

theorem Memory.mem_insert {m : Memory} {a : Nat} {v : Word} {c : Nat × Word}
    (h : c ∈ Memory.insert m a v) : c = (a, v) ∨ c ∈ m := by
  induction m with
  | nil => simpa [Memory.insert] using h
  | cons d m ih =>
    unfold Memory.insert at h
    split at h
    · simpa using h
    · rcases List.mem_cons.mp h with rfl | h
      · simp
      · rcases ih h with h | h <;> simp [h]

theorem Memory.pairwise_insert {m : Memory} (h : m.Pairwise (fun c d => c.1 < d.1)) {a : Nat}
    (v : Word) (hne : ∀ c ∈ m, c.1 ≠ a) :
    (Memory.insert m a v).Pairwise (fun c d => c.1 < d.1) := by
  induction m with
  | nil => simp [Memory.insert]
  | cons d m ih =>
    have hd : d.1 ≠ a := hne d (by simp)
    have h' := List.pairwise_cons.mp h
    unfold Memory.insert
    split
    · rename_i hlt
      refine List.pairwise_cons.mpr ⟨fun c hc => ?_, h⟩
      rcases List.mem_cons.mp hc with rfl | hc
      · exact hlt
      · exact Nat.lt_trans hlt (h'.1 c hc)
    · rename_i hlt
      refine List.pairwise_cons.mpr ⟨fun c hc => ?_, ih h'.2 fun c hc => hne c (by simp [hc])⟩
      rcases Memory.mem_insert hc with rfl | hc
      · simp only at hlt ⊢
        omega
      · exact h'.1 c hc

/-- A store at a valid address keeps the canonical form. -/
theorem Memory.wf_store {m : Memory} (h : Memory.wf m) {a : Nat} (ha : a < 32768) (v : Word) :
    Memory.wf (Memory.store m a v) := by
  unfold Memory.store
  split
  · exact Memory.wf_erase h a
  · rename_i hv
    refine ⟨Memory.pairwise_insert (Memory.wf_erase h a).1 v fun c hc => by
      simpa using (List.mem_filter.mp hc).2, fun c hc => ?_⟩
    rcases Memory.mem_insert hc with rfl | hc
    · exact ⟨ha, hv⟩
    · exact (Memory.wf_erase h a).2 c hc

/-- Storing words inside the address space keeps the canonical form. -/
theorem Memory.wf_storeWords {m : Memory} (h : Memory.wf m) (p : Nat) (ws : List Word)
    (hp : p + ws.length ≤ 32768) : Memory.wf (Memory.storeWords m p ws) := by
  induction ws generalizing m p with
  | nil => exact h
  | cons w ws ih =>
    rw [List.length_cons] at hp
    exact ih (Memory.wf_store h (by omega) w) (p + 1) (by omega)

theorem Memory.lookup_ne_fill {m : Memory} (h : Memory.wf m) {c : Nat × Word} (hc : c ∈ m) :
    Memory.lookup m c.1 = c.2 ∧ c.2 ≠ 0 :=
  ⟨Memory.lookup_mem h.1 hc, (h.2 c hc).2⟩

theorem Memory.mem_of_lookup_ne {m : Memory} {a : Nat} (h : Memory.lookup m a ≠ 0) :
    (a, Memory.lookup m a) ∈ m := by
  induction m with
  | nil => exact absurd rfl h
  | cons c m ih =>
    by_cases hc : c.1 = a
    · subst hc
      simp [Memory.lookup]
    · rw [Memory.lookup, if_neg hc] at h ⊢
      exact List.mem_cons_of_mem _ (ih h)

/-- Canonical memories that read alike everywhere are equal. -/
theorem Memory.ext_of_wf {m n : Memory} (hm : Memory.wf m) (hn : Memory.wf n)
    (h : ∀ a, Memory.lookup m a = Memory.lookup n a) : m = n := by
  have sub : ∀ {m n : Memory}, Memory.wf m → (∀ a, Memory.lookup m a = Memory.lookup n a) →
      ∀ c ∈ m, c ∈ n := by
    intro m n hm h c hc
    obtain ⟨hl, h0⟩ := Memory.lookup_ne_fill hm hc
    have hn := Memory.mem_of_lookup_ne (m := n) (a := c.1) (by rw [← h, hl]; exact h0)
    rwa [← h, hl] at hn
  have nodup : ∀ {m : Memory}, Memory.wf m → m.Nodup := fun hm =>
    List.Pairwise.imp (fun hlt => ne_of_apply_ne Prod.fst (Nat.ne_of_lt hlt)) hm.1
  have perm : m.Perm n := (List.perm_ext_iff_of_nodup (nodup hm) (nodup hn)).mpr fun c =>
    ⟨sub hm h c, sub hn (fun a => (h a).symm) c⟩
  exact perm.eq_of_pairwise (fun c d _ _ hcd hdc => absurd hcd (Nat.lt_asymm hdc)) hm.1 hn.1

end Sys2Proof.Machine
end

