-- ==== Sys2Proof/Laws/State.lean ====
section
/-! SUPPORT. What each field of State is after each update of Machine/Ops.lean: one lemma a field and
an update, true by computation. -/

namespace Sys2Proof.Machine

variable (s : State)

/-! ### setReg -/

@[simp] theorem State.setReg_mem (n : Nat) (v : Word) : (s.setReg n v).mem = s.mem := rfl
@[simp] theorem State.setReg_x (n : Nat) (v : Word) :
    (s.setReg n v).x = if h : n < 8 then s.x.set n v else s.x := rfl
@[simp] theorem State.setReg_stk (n : Nat) (v : Word) : (s.setReg n v).stk = s.stk := rfl
@[simp] theorem State.setReg_pc (n : Nat) (v : Word) : (s.setReg n v).pc = s.pc := rfl
@[simp] theorem State.setReg_run (n : Nat) (v : Word) : (s.setReg n v).run = s.run := rfl
@[simp] theorem State.setReg_input (n : Nat) (v : Word) : (s.setReg n v).input = s.input := rfl
@[simp] theorem State.setReg_output (n : Nat) (v : Word) : (s.setReg n v).output = s.output := rfl

/-! ### push -/

@[simp] theorem State.push_mem (v : Word) : (s.push v).mem = s.mem := rfl
@[simp] theorem State.push_x (v : Word) : (s.push v).x = s.x := rfl
@[simp] theorem State.push_stk (v : Word) : (s.push v).stk = s.stk ++ [v] := rfl
@[simp] theorem State.push_pc (v : Word) : (s.push v).pc = s.pc := rfl
@[simp] theorem State.push_run (v : Word) : (s.push v).run = s.run := rfl
@[simp] theorem State.push_input (v : Word) : (s.push v).input = s.input := rfl
@[simp] theorem State.push_output (v : Word) : (s.push v).output = s.output := rfl

/-! ### storeWord -/

@[simp] theorem State.storeWord_mem (a : Nat) (v : Word) :
    (s.storeWord a v).mem = Memory.store s.mem a v := rfl
@[simp] theorem State.storeWord_x (a : Nat) (v : Word) : (s.storeWord a v).x = s.x := rfl
@[simp] theorem State.storeWord_stk (a : Nat) (v : Word) : (s.storeWord a v).stk = s.stk := rfl
@[simp] theorem State.storeWord_pc (a : Nat) (v : Word) : (s.storeWord a v).pc = s.pc := rfl
@[simp] theorem State.storeWord_run (a : Nat) (v : Word) : (s.storeWord a v).run = s.run := rfl
@[simp] theorem State.storeWord_input (a : Nat) (v : Word) :
    (s.storeWord a v).input = s.input := rfl
@[simp] theorem State.storeWord_output (a : Nat) (v : Word) :
    (s.storeWord a v).output = s.output := rfl

/-! ### outByte -/

@[simp] theorem State.outByte_mem (b : Byte) : (s.outByte b).mem = s.mem := rfl
@[simp] theorem State.outByte_x (b : Byte) : (s.outByte b).x = s.x := rfl
@[simp] theorem State.outByte_stk (b : Byte) : (s.outByte b).stk = s.stk := rfl
@[simp] theorem State.outByte_pc (b : Byte) : (s.outByte b).pc = s.pc := rfl
@[simp] theorem State.outByte_run (b : Byte) : (s.outByte b).run = s.run := rfl
@[simp] theorem State.outByte_input (b : Byte) : (s.outByte b).input = s.input := rfl
@[simp] theorem State.outByte_output (b : Byte) : (s.outByte b).output = s.output ++ [b] := rfl

/-! ### apply -/

@[simp] theorem State.apply_mem (sig : Signal) : (s.apply sig).mem = s.mem := rfl
@[simp] theorem State.apply_x (sig : Signal) : (s.apply sig).x = s.x := rfl
@[simp] theorem State.apply_stk (sig : Signal) : (s.apply sig).stk = s.stk := rfl
@[simp] theorem State.apply_pc (sig : Signal) : (s.apply sig).pc = sig.next := rfl
@[simp] theorem State.apply_run (sig : Signal) :
    (s.apply sig).run = if sig.halt then .halted else s.run := rfl
@[simp] theorem State.apply_input (sig : Signal) : (s.apply sig).input = s.input := rfl
@[simp] theorem State.apply_output (sig : Signal) : (s.apply sig).output = s.output := rfl

/-! ### advance -/

@[simp] theorem State.advance_mem (len : Nat) : (s.advance len).mem = s.mem := rfl
@[simp] theorem State.advance_x (len : Nat) : (s.advance len).x = s.x := rfl
@[simp] theorem State.advance_stk (len : Nat) : (s.advance len).stk = s.stk := rfl
@[simp] theorem State.advance_pc (len : Nat) :
    (s.advance len).pc = s.pc + BitVec.ofNat 16 len := rfl
@[simp] theorem State.advance_run (len : Nat) : (s.advance len).run = s.run := rfl
@[simp] theorem State.advance_input (len : Nat) : (s.advance len).input = s.input := rfl
@[simp] theorem State.advance_output (len : Nat) : (s.advance len).output = s.output := rfl

/-! ### writeResult -/

@[simp] theorem State.writeResult_mem (a : Reg) (v : Word) (len : Nat) :
    (s.writeResult a v len).mem = s.mem := rfl
@[simp] theorem State.writeResult_x (a : Reg) (v : Word) (len : Nat) :
    (s.writeResult a v len).x = s.x.set a.val v := by
  simp [State.writeResult, State.advance, State.apply, State.setReg]
@[simp] theorem State.writeResult_stk (a : Reg) (v : Word) (len : Nat) :
    (s.writeResult a v len).stk = s.stk := rfl
@[simp] theorem State.writeResult_pc (a : Reg) (v : Word) (len : Nat) :
    (s.writeResult a v len).pc = s.pc + BitVec.ofNat 16 len := rfl
@[simp] theorem State.writeResult_run (a : Reg) (v : Word) (len : Nat) :
    (s.writeResult a v len).run = s.run := rfl
@[simp] theorem State.writeResult_input (a : Reg) (v : Word) (len : Nat) :
    (s.writeResult a v len).input = s.input := rfl
@[simp] theorem State.writeResult_output (a : Reg) (v : Word) (len : Nat) :
    (s.writeResult a v len).output = s.output := rfl

/-! ### faultedWith -/

@[simp] theorem State.faultedWith_mem (kind : Fault) (info : Word) :
    (s.faultedWith kind info).mem = s.mem := rfl
@[simp] theorem State.faultedWith_x (kind : Fault) (info : Word) :
    (s.faultedWith kind info).x = s.x := rfl
@[simp] theorem State.faultedWith_stk (kind : Fault) (info : Word) :
    (s.faultedWith kind info).stk = s.stk := rfl
@[simp] theorem State.faultedWith_pc (kind : Fault) (info : Word) :
    (s.faultedWith kind info).pc = s.pc := rfl
@[simp] theorem State.faultedWith_run (kind : Fault) (info : Word) :
    (s.faultedWith kind info).run = .faulted kind info := rfl
@[simp] theorem State.faultedWith_input (kind : Fault) (info : Word) :
    (s.faultedWith kind info).input = s.input := rfl
@[simp] theorem State.faultedWith_output (kind : Fault) (info : Word) :
    (s.faultedWith kind info).output = s.output := rfl

/-! ### supplyInput -/

@[simp] theorem State.supplyInput_mem (bs : List Byte) : (s.supplyInput bs).mem = s.mem := rfl
@[simp] theorem State.supplyInput_x (bs : List Byte) : (s.supplyInput bs).x = s.x := rfl
@[simp] theorem State.supplyInput_stk (bs : List Byte) : (s.supplyInput bs).stk = s.stk := rfl
@[simp] theorem State.supplyInput_pc (bs : List Byte) : (s.supplyInput bs).pc = s.pc := rfl
@[simp] theorem State.supplyInput_run (bs : List Byte) : (s.supplyInput bs).run = s.run := rfl
@[simp] theorem State.supplyInput_input (bs : List Byte) :
    (s.supplyInput bs).input = s.input ++ bs := rfl
@[simp] theorem State.supplyInput_output (bs : List Byte) :
    (s.supplyInput bs).output = s.output := rfl

/-! ### Reset -/

@[simp] theorem State.reset_mem : State.reset.mem = [] := rfl
@[simp] theorem State.reset_x : State.reset.x = Config.initRegs := rfl
@[simp] theorem State.reset_stk : State.reset.stk = [] := rfl
@[simp] theorem State.reset_pc : State.reset.pc = 0 := rfl
@[simp] theorem State.reset_run : State.reset.run = .running := rfl
@[simp] theorem State.reset_input : State.reset.input = [] := rfl
@[simp] theorem State.reset_output : State.reset.output = [] := rfl

end Sys2Proof.Machine
end

