-- ==== Sys2Proof/Laws/Ports.lean ====
section
/-! SUPPORT. What each port can do (R32): one lemma a case, so that no proof unfolds a port. -/

namespace Sys2Proof.Machine

variable (s : State)

/-! ### Register file -/

@[simp] theorem State.getReg_reg (r : Reg) : s.getReg r.val = s.x[r.val] := by
  simp [State.getReg]

theorem State.getReg_of_le {n : Nat} (h : 8 ≤ n) : s.getReg n = 0 := by
  simp [State.getReg, Nat.not_lt.mpr h]

theorem State.getReg_congr {s t : State} (h : t.x = s.x) (n : Nat) : t.getReg n = s.getReg n := by
  simp [State.getReg, h]

theorem State.getReg_setReg_same {n : Nat} (h : n < 8) (v : Word) : (s.setReg n v).getReg n = v := by
  simp [State.getReg, h]

theorem State.getReg_setReg_other {m n : Nat} (h : m ≠ n) (v : Word) :
    (s.setReg n v).getReg m = s.getReg m := by
  by_cases hn : n < 8 <;> simp [State.getReg, hn, Ne.symm h]

theorem State.setReg_of_le {n : Nat} (h : 8 ≤ n) (v : Word) : s.setReg n v = s := by
  simp [State.setReg, Nat.not_lt.mpr h]

theorem State.getReg_writeResult_same (a : Reg) (v : Word) (len : Nat) :
    (s.writeResult a v len).getReg a.val = v := by
  simp

theorem State.getReg_writeResult_other {a r : Reg} (h : r ≠ a) (v : Word) (len : Nat) :
    (s.writeResult a v len).getReg r.val = s.getReg r.val := by
  have h : a.val ≠ r.val := fun he => h (Fin.ext he.symm)
  simp [h]

/-! ### Memory -/

theorem State.memRead_of_lt {a : Word} (h : a.toNat < 32768) :
    s.memRead a = some (Memory.lookup s.mem a.toNat) := if_pos h

theorem State.memRead_of_le {a : Word} (h : 32768 ≤ a.toNat) : s.memRead a = none :=
  if_neg (Nat.not_lt.mpr h)

theorem State.memRead_congr {s t : State} (h : t.mem = s.mem) (a : Word) :
    t.memRead a = s.memRead a := by
  simp [State.memRead, h]

theorem State.memWrite_of_lt {a : Word} (h : a.toNat < 32768) (v : Word) :
    s.memWrite a v = some (s.storeWord a.toNat v) := if_pos h

theorem State.memWrite_of_le {a : Word} (h : 32768 ≤ a.toNat) (v : Word) : s.memWrite a v = none :=
  if_neg (Nat.not_lt.mpr h)

theorem State.memRead_storeWord_same {a : Word} (h : a.toNat < 32768) (v : Word) :
    (s.storeWord a.toNat v).memRead a = some v := by
  simp [State.memRead_of_lt _ h]

theorem State.memRead_storeWord_other {a b : Word} (h : b ≠ a) (v : Word) :
    (s.storeWord a.toNat v).memRead b = s.memRead b := by
  have h : b.toNat ≠ a.toNat := fun he => h (BitVec.eq_of_toNat_eq he)
  simp [State.memRead, Memory.read, Memory.lookup_store_other _ _ h]

theorem Memory.read_of_lt (m : Memory) {a : Nat} (h : a < 32768) :
    Memory.read m a = some (Memory.lookup m a) := if_pos h

theorem Memory.read_of_le (m : Memory) {a : Nat} (h : 32768 ≤ a) : Memory.read m a = none :=
  if_neg (Nat.not_lt.mpr h)

/-! ### Stack and streams -/

theorem State.pop_of_concat {st : List Word} {v : Word} (h : s.stk = st ++ [v]) :
    s.pop = some (v, { s with stk := st }) := by
  simp [State.pop, h]

theorem State.pop_of_nil (h : s.stk = []) : s.pop = none := by
  simp [State.pop, h]

/-- Everything `Pop` can do (R25): the empty signal, or the top entry and the rest. -/
theorem State.pop_cases :
    (s.stk = [] ∧ s.pop = none) ∨
    ∃ st v, s.stk = st ++ [v] ∧ s.pop = some (v, { s with stk := st }) := by
  rcases List.eq_nil_or_concat s.stk with h | ⟨st, v, h⟩
  · exact .inl ⟨h, s.pop_of_nil h⟩
  · rw [List.concat_eq_append] at h
    exact .inr ⟨st, v, h, s.pop_of_concat h⟩

theorem State.inByte_of_cons {b : Byte} {rest : List Byte} (h : s.input = b :: rest) :
    s.inByte = some (b, { s with input := rest }) := by
  simp [State.inByte, h]

theorem State.inByte_of_nil (h : s.input = []) : s.inByte = none := by
  simp [State.inByte, h]

/-- Everything `InByte` can do (R102): no byte available, or the first byte and the rest. -/
theorem State.inByte_cases :
    (s.input = [] ∧ s.inByte = none) ∨
    ∃ b rest, s.input = b :: rest ∧ s.inByte = some (b, { s with input := rest }) := by
  cases h : s.input with
  | nil => exact .inl ⟨rfl, s.inByte_of_nil h⟩
  | cons b rest => exact .inr ⟨b, rest, rfl, s.inByte_of_cons h⟩

/-! ### Faults, operands and the ALU -/

theorem State.raise_eq (kind : Fault) (info : Word) :
    s.raise kind info = .next { s with run := .faulted kind info } := rfl

@[simp] theorem State.resolve_lit (v : Word) : s.resolve (.lit v) = v := rfl

theorem State.resolve_reg (r : Reg) : s.resolve (.reg r) = s.getReg r.val := rfl

/-- Resolution looks at the register file alone (R67). -/
theorem State.resolve_congr {s t : State} (h : t.x = s.x) (o : Operand) :
    t.resolve o = s.resolve o := by
  cases o <;> simp [State.resolve, h]

/-- A register that an operand does not name does not reach its value (R15). -/
theorem State.resolve_setReg_other {o : Operand} {r : Reg} (h : Operand.reg r ≠ o) (v : Word) :
    (s.setReg r.val v).resolve o = s.resolve o := by
  cases o with
  | lit w => rfl
  | reg n =>
    refine State.getReg_setReg_other s (fun he => h ?_) v
    rw [Fin.ext he]

theorem aluAdd_toNat (b c : Word) : (aluAdd b c).toNat = (b.toNat + c.toNat) % 32768 := by
  simp only [aluAdd, BitVec.toNat_ofNat, Config.modulus]
  omega

theorem aluMult_toNat (b c : Word) : (aluMult b c).toNat = (b.toNat * c.toNat) % 32768 := by
  simp only [aluMult, BitVec.toNat_ofNat, Config.modulus]
  omega

theorem aluMod_of_zero (b : Word) {c : Word} (h : c.toNat = 0) : aluMod b c = none := if_pos h

theorem aluMod_of_ne (b : Word) {c : Word} (h : c.toNat ≠ 0) : aluMod b c = some (b % c) := by
  have hb := b.isLt
  have hle := Nat.mod_le b.toNat c.toNat
  rw [aluMod, if_neg h]
  refine congrArg some (BitVec.eq_of_toNat_eq ?_)
  rw [BitVec.toNat_ofNat, BitVec.toNat_umod, Nat.mod_eq_of_lt (by omega)]

theorem lowByte_toNat (v : Word) : (lowByte v).toNat = v.toNat % 256 := by
  simp [lowByte]

theorem zextByte_toNat (b : Byte) : (zextByte b).toNat = b.toNat := by
  have hb := b.isLt
  simp only [zextByte, BitVec.toNat_setWidth]
  omega

end Sys2Proof.Machine
end

