-- ==== Sys2Proof/Laws/Exec.lean ====
section
/-! SUPPORT. Everything a step can do, said once: the change an instruction makes before its signal is
applied, and the inversion lemmas of `exec` and `step` that every whole-machine claim rests on. -/

namespace Sys2Proof.Machine

/-- What instruction `i` has done to `s` when its signal is applied (R65 step 3): `m` is the state
then, with `pc` and the run status still those of `s`, and `sig` the signal. -/
inductive Effect (s : State) : Instr → State → Signal → Prop where
  | hlt : Effect s .hlt s { s.defaultSignal 1 with halt := true }
  | nop : Effect s .nop s (s.defaultSignal 1)
  | set (a b) : Effect s (.set a b) (s.setReg a.val (s.resolve b)) (s.defaultSignal 3)
  | push (a) : Effect s (.push a) (s.push (s.resolve a)) (s.defaultSignal 2)
  | pop (a) {st v} (h : s.stk = st ++ [v]) :
      Effect s (.pop a) (({ s with stk := st } : State).setReg a.val v) (s.defaultSignal 2)
  | eq (a b c) : Effect s (.eq a b c) (s.setReg a.val (eqWord (s.resolve b) (s.resolve c)))
      (s.defaultSignal 4)
  | gt (a b c) : Effect s (.gt a b c) (s.setReg a.val (gtWord (s.resolve b) (s.resolve c)))
      (s.defaultSignal 4)
  | jmp (a) : Effect s (.jmp a) s (transferTo (s.resolve a))
  | jt (a b) : Effect s (.jt a b) s
      (if isNonZero (s.resolve a) then transferTo (s.resolve b) else s.defaultSignal 3)
  | jf (a b) : Effect s (.jf a b) s
      (if isNonZero (s.resolve a) then s.defaultSignal 3 else transferTo (s.resolve b))
  | call (a) : Effect s (.call a) (s.push (s.pc + 2)) (transferTo (s.resolve a))
  | ret {st v} (h : s.stk = st ++ [v]) : Effect s .ret { s with stk := st } (transferTo v)
  | retEmpty (h : s.stk = []) : Effect s .ret s { s.defaultSignal 1 with halt := true }
  | add (a b c) : Effect s (.add a b c) (s.setReg a.val (aluAdd (s.resolve b) (s.resolve c)))
      (s.defaultSignal 4)
  | mult (a b c) : Effect s (.mult a b c) (s.setReg a.val (aluMult (s.resolve b) (s.resolve c)))
      (s.defaultSignal 4)
  | mod (a b c) (h : (s.resolve c).toNat ≠ 0) :
      Effect s (.mod a b c) (s.setReg a.val (s.resolve b % s.resolve c)) (s.defaultSignal 4)
  | and (a b c) : Effect s (.and a b c) (s.setReg a.val (aluAnd (s.resolve b) (s.resolve c)))
      (s.defaultSignal 4)
  | or (a b c) : Effect s (.or a b c) (s.setReg a.val (aluOr (s.resolve b) (s.resolve c)))
      (s.defaultSignal 4)
  | not (a b) : Effect s (.not a b) (s.setReg a.val (aluNot (s.resolve b))) (s.defaultSignal 3)
  | rmem (a b) (h : (s.resolve b).toNat < 32768) :
      Effect s (.rmem a b) (s.setReg a.val (Memory.lookup s.mem (s.resolve b).toNat))
        (s.defaultSignal 3)
  | wmem (a b) (h : (s.resolve a).toNat < 32768) :
      Effect s (.wmem a b) (s.storeWord (s.resolve a).toNat (s.resolve b)) (s.defaultSignal 3)
  | out (a) : Effect s (.out a) (s.outByte (lowByte (s.resolve a))) (s.defaultSignal 2)
  | inp (a) {b rest} (h : s.input = b :: rest) :
      Effect s (.inp a) (({ s with input := rest } : State).setReg a.val (zextByte b))
        (s.defaultSignal 2)

/-- The execution faults (R104): which instruction raises which, when, and with what `info`. -/
inductive Raises (s : State) : Instr → Fault → Word → Prop where
  | pop (a) (h : s.stk = []) : Raises s (.pop a) .stackUnderflow 0
  | mod (a b c) (h : (s.resolve c).toNat = 0) : Raises s (.mod a b c) .divideByZero 0
  | rmem (a b) (h : 32768 ≤ (s.resolve b).toNat) :
      Raises s (.rmem a b) .addressOutOfRange (s.resolve b)
  | wmem (a b) (h : 32768 ≤ (s.resolve a).toNat) :
      Raises s (.wmem a b) .addressOutOfRange (s.resolve a)

/-- Everything `exec` can do: the instruction's effect and then its signal, its execution fault, or
the wait of `in`. -/
theorem exec_cases (i : Instr) (s : State) :
    (∃ m sig, Effect s i m sig ∧ exec i s = .next (m.apply sig)) ∨
    (∃ kind info, Raises s i kind info ∧
      exec i s = .next { s with run := .faulted kind info }) ∨
    ((∃ a, i = .inp a) ∧ s.input = [] ∧ exec i s = .next s) := by
  cases i with
  | hlt => exact .inl ⟨_, _, .hlt, rfl⟩
  | nop => exact .inl ⟨_, _, .nop, rfl⟩
  | set a b => exact .inl ⟨_, _, .set a b, rfl⟩
  | push a => exact .inl ⟨_, _, .push a, rfl⟩
  | pop a =>
    rcases s.pop_cases with ⟨h, hp⟩ | ⟨st, v, h, hp⟩
    · exact .inr (.inl ⟨_, _, .pop a h, by simp [exec, execPop, hp, State.raise_eq]⟩)
    · refine .inl ⟨_, _, .pop a h, ?_⟩
      simp only [exec, execPop, hp]
      rfl
  | eq a b c => exact .inl ⟨_, _, .eq a b c, rfl⟩
  | gt a b c => exact .inl ⟨_, _, .gt a b c, rfl⟩
  | jmp a => exact .inl ⟨_, _, .jmp a, rfl⟩
  | jt a b => exact .inl ⟨_, _, .jt a b, rfl⟩
  | jf a b => exact .inl ⟨_, _, .jf a b, rfl⟩
  | add a b c => exact .inl ⟨_, _, .add a b c, rfl⟩
  | mult a b c => exact .inl ⟨_, _, .mult a b c, rfl⟩
  | mod a b c =>
    by_cases h : (s.resolve c).toNat = 0
    · exact .inr (.inl ⟨_, _, .mod a b c h, by
        simp [exec, execMod, aluMod_of_zero _ h, State.raise_eq]⟩)
    · refine .inl ⟨_, _, .mod a b c h, ?_⟩
      simp only [exec, execMod, aluMod_of_ne _ h]
      rfl
  | and a b c => exact .inl ⟨_, _, .and a b c, rfl⟩
  | or a b c => exact .inl ⟨_, _, .or a b c, rfl⟩
  | not a b => exact .inl ⟨_, _, .not a b, rfl⟩
  | rmem a b =>
    rcases Nat.lt_or_ge (s.resolve b).toNat 32768 with h | h
    · refine .inl ⟨_, _, .rmem a b h, ?_⟩
      simp only [exec, execRmem, s.memRead_of_lt h]
      rfl
    · exact .inr (.inl ⟨_, _, .rmem a b h, by
        simp [exec, execRmem, s.memRead_of_le h, State.raise_eq]⟩)
  | wmem a b =>
    rcases Nat.lt_or_ge (s.resolve a).toNat 32768 with h | h
    · refine .inl ⟨_, _, .wmem a b h, ?_⟩
      simp only [exec, execWmem, s.memWrite_of_lt h]
      rfl
    · exact .inr (.inl ⟨_, _, .wmem a b h, by
        simp [exec, execWmem, s.memWrite_of_le h, State.raise_eq]⟩)
  | call a => exact .inl ⟨_, _, .call a, rfl⟩
  | ret =>
    rcases s.pop_cases with ⟨h, hp⟩ | ⟨st, v, h, hp⟩
    · exact .inl ⟨_, _, .retEmpty h, by simp [exec, execRet, hp]⟩
    · exact .inl ⟨_, _, .ret h, by simp [exec, execRet, hp]⟩
  | out a => exact .inl ⟨_, _, .out a, rfl⟩
  | inp a =>
    rcases s.inByte_cases with ⟨h, hb⟩ | ⟨b, rest, h, hb⟩
    · exact .inr (.inr ⟨⟨a, rfl⟩, h, by simp [exec, execInp, hb]⟩)
    · refine .inl ⟨_, _, .inp a h, ?_⟩
      simp only [exec, execInp, hb]
      rfl

/-- The run status changes by the signal alone (R68). -/
theorem Effect.run_eq {s m : State} {i : Instr} {sig : Signal} (h : Effect s i m sig) :
    m.run = s.run := by
  cases h <;> rfl

/-- `pc` is not written before the signal is applied (R68). -/
theorem Effect.pc_eq {s m : State} {i : Instr} {sig : Signal} (h : Effect s i m sig) :
    m.pc = s.pc := by
  cases h <;> rfl

/-! ### The step -/

theorem step_of_decodeAt {s : State} (hr : s.run = .running) {i : Instr}
    (h : Memory.decodeAt s.mem s.pc = .ok i) : step s = exec i s := by
  simp [step, hr, h]

theorem step_of_decodeFault {s : State} (hr : s.run = .running) {kind : Fault} {info : Word}
    (h : Memory.decodeAt s.mem s.pc = .error (kind, info)) :
    step s = .next { s with run := .faulted kind info } := by
  simp [step, hr, h, State.raise_eq]

theorem step_of_stopped {s : State} (hr : s.run ≠ .running) : step s = .next s := by
  unfold step
  split
  · exact absurd ‹_› hr
  · rfl
  · rfl

/-- Everything a step can do (R65, R70, R71, R113): nothing, for a stopped machine; a decode fault; or
what `exec` does with the decoded instruction. -/
theorem step_cases (s : State) :
    (s.run ≠ .running ∧ step s = .next s) ∨
    (∃ kind info, s.run = .running ∧ Memory.decodeAt s.mem s.pc = .error (kind, info) ∧
      step s = .next { s with run := .faulted kind info }) ∨
    (∃ i, s.run = .running ∧ Memory.decodeAt s.mem s.pc = .ok i ∧ step s = exec i s) := by
  by_cases hr : s.run = .running
  · cases h : Memory.decodeAt s.mem s.pc with
    | error e => exact .inr (.inl ⟨e.1, e.2, hr, rfl, step_of_decodeFault hr h⟩)
    | ok i => exact .inr (.inr ⟨i, hr, rfl, step_of_decodeAt hr h⟩)
  · exact .inl ⟨hr, step_of_stopped hr⟩

end Sys2Proof.Machine
end

