-- ==== Sys2Proof/Laws/HostPort.lean ====
section
/-! SUPPORT. The image file's byte order (R39) and reset's two outcomes (R124). -/

namespace Sys2Proof.Machine

@[simp] theorem bytesOfWords_nil : bytesOfWords [] = [] := rfl

theorem bytesOfWords_cons (w : Word) (ws : List Word) :
    bytesOfWords (w :: ws) = lowByte w :: highByte w :: bytesOfWords ws := rfl

theorem bytesOfWords_length (ws : List Word) : (bytesOfWords ws).length = 2 * ws.length := by
  induction ws with
  | nil => rfl
  | cons w ws ih =>
    rw [bytesOfWords_cons, List.length_cons, List.length_cons, ih, List.length_cons]
    omega

/-- A word from its two bytes: the low-order byte plus 256 times the other (R39). -/
theorem word_of_bytes_toNat (lo hi : Byte) : (hi ++ lo : Word).toNat = lo.toNat + 256 * hi.toNat := by
  have h := lo.isLt
  rw [BitVec.toNat_append, Nat.shiftLeft_eq, Nat.mul_comm,
    ← Nat.two_pow_add_eq_or_of_lt h]
  omega

theorem highByte_append_lowByte (w : Word) : (highByte w ++ lowByte w : Word) = w := by
  have h := w.isLt
  refine BitVec.eq_of_toNat_eq ?_
  rw [word_of_bytes_toNat, lowByte_toNat]
  simp only [highByte, BitVec.toNat_setWidth, BitVec.toNat_ushiftRight, Nat.shiftRight_eq_div_pow]
  omega

/-- A loaded image is in canonical form (R50). -/
theorem Memory.wf_ofImage {image : List Word} (h : image.length ≤ 32768) :
    Memory.wf (Memory.ofImage image) :=
  Memory.wf_storeWords Memory.wf_nil 0 image ((Nat.zero_add _).trans_le h)

/-- A loaded image reads as the image, and as 0 beyond it (R31, R50). -/
theorem Memory.lookup_ofImage (image : List Word) (a : Nat) :
    Memory.lookup (Memory.ofImage image) a = image.getD a 0 := by
  rw [Memory.ofImage, Memory.lookup_storeWords]
  split
  · rw [Nat.sub_zero]
  · rw [Memory.lookup_nil, List.getD_eq_getElem?_getD, List.getElem?_eq_none (by omega)]
    rfl

theorem State.resetWith_of_le {image : List Word} (h : image.length ≤ 32768) (p : Word)
    (r : Vector Word 8) (input : List Byte) :
    State.resetWith image p r input =
      .next { mem := Memory.ofImage image, x := r, stk := [], pc := p, run := .running,
              input := input, output := [] } := if_pos h

/-- Everything an accepted reset does (R124), field by field. -/
theorem State.resetWith_next {image : List Word} (h : image.length ≤ 32768) (p : Word)
    (r : Vector Word 8) (input : List Byte) :
    ∃ t, State.resetWith image p r input = .next t ∧ t.mem = Memory.ofImage image ∧ t.x = r ∧
      t.stk = [] ∧ t.pc = p ∧ t.run = .running ∧ t.input = input ∧ t.output = [] :=
  ⟨_, State.resetWith_of_le h p r input, rfl, rfl, rfl, rfl, rfl, rfl, rfl⟩

theorem State.resetWith_of_lt {image : List Word} (h : 32768 < image.length) (p : Word)
    (r : Vector Word 8) (input : List Byte) :
    State.resetWith image p r input = .refused .imageTooLarge := if_neg (Nat.not_le.mpr h)

@[simp] theorem State.dumpWords_length (s : State) : s.dumpWords.length = 32768 := by
  simp [State.dumpWords]

/-- Word `a` of the dump is the word at address `a` (R128). -/
theorem State.dumpWords_getElem? (s : State) {a : Nat} (h : a < 32768) :
    s.dumpWords[a]? = some (Memory.lookup s.mem a) := by
  simp [State.dumpWords, List.getElem?_range h]

end Sys2Proof.Machine
end

