-- ==== Sys2Proof/Laws/PerInstr.lean ====
section
/-! SUPPORT. Facts about every instruction as syntax, one lemma per constructor. Family EncodeLength:
an encoding has as many words as the instruction's length (R56, R69). -/

namespace Sys2Proof.Laws.EncodeLength

/-- The encoding of `i` has `i.length` words, at least one and at most four (R51). -/
def Statement (i : Instr) : Prop := (encode i).length = i.length ∧ 1 ≤ i.length ∧ i.length ≤ 4

theorem hlt : Statement (.hlt) := by simp [Statement, encode, Instr.length]
theorem set (a : Reg) (b : Operand) : Statement (.set a b) := by simp [Statement, encode, Instr.length]
theorem push (a : Operand) : Statement (.push a) := by simp [Statement, encode, Instr.length]
theorem pop (a : Reg) : Statement (.pop a) := by simp [Statement, encode, Instr.length]
theorem eq (a : Reg) (b : Operand) (c : Operand) : Statement (.eq a b c) := by simp [Statement, encode, Instr.length]
theorem gt (a : Reg) (b : Operand) (c : Operand) : Statement (.gt a b c) := by simp [Statement, encode, Instr.length]
theorem jmp (a : Operand) : Statement (.jmp a) := by simp [Statement, encode, Instr.length]
theorem jt (a : Operand) (b : Operand) : Statement (.jt a b) := by simp [Statement, encode, Instr.length]
theorem jf (a : Operand) (b : Operand) : Statement (.jf a b) := by simp [Statement, encode, Instr.length]
theorem add (a : Reg) (b : Operand) (c : Operand) : Statement (.add a b c) := by simp [Statement, encode, Instr.length]
theorem mult (a : Reg) (b : Operand) (c : Operand) : Statement (.mult a b c) := by simp [Statement, encode, Instr.length]
theorem mod (a : Reg) (b : Operand) (c : Operand) : Statement (.mod a b c) := by simp [Statement, encode, Instr.length]
theorem and (a : Reg) (b : Operand) (c : Operand) : Statement (.and a b c) := by simp [Statement, encode, Instr.length]
theorem or (a : Reg) (b : Operand) (c : Operand) : Statement (.or a b c) := by simp [Statement, encode, Instr.length]
theorem not (a : Reg) (b : Operand) : Statement (.not a b) := by simp [Statement, encode, Instr.length]
theorem rmem (a : Reg) (b : Operand) : Statement (.rmem a b) := by simp [Statement, encode, Instr.length]
theorem wmem (a : Operand) (b : Operand) : Statement (.wmem a b) := by simp [Statement, encode, Instr.length]
theorem call (a : Operand) : Statement (.call a) := by simp [Statement, encode, Instr.length]
theorem ret : Statement (.ret) := by simp [Statement, encode, Instr.length]
theorem out (a : Operand) : Statement (.out a) := by simp [Statement, encode, Instr.length]
theorem inp (a : Reg) : Statement (.inp a) := by simp [Statement, encode, Instr.length]
theorem nop : Statement (.nop) := by simp [Statement, encode, Instr.length]

end Sys2Proof.Laws.EncodeLength
end

