-- ==== Sys2Proof/Tests/Slice0.lean ====
section
/-! SUPPORT. Tests against the spec's own worked examples and vectors (95_test_vectors.md, cited by S
and V numbers; each theorem says which), the decoding of words written out from the encoding tables
of 30_encoding.md, the well-formedness smoke test, and a witness for every statement that has
hypotheses. -/

namespace Sys2Proof.Tests

open Sys2Proof.Machine

/-! ### Helpers -/

/-- The reset state with words placed from address `p` and `pc` there. -/
def code (p : Nat) (ws : List Word) : State :=
  { State.reset with mem := Memory.storeWords [] p ws, pc := BitVec.ofNat 16 p }

/-- The next state of one step, none for a fault or a refusal outcome. -/
def after (s : State) : Option State :=
  match step s with
  | .next t => some t
  | .fault _ => none
  | .refused _ => none

/-- One register and `pc` after one step. -/
def regPc (s : State) (n : Nat) : Option (Word × Word) := (after s).map fun t => (t.getReg n, t.pc)

/-- Run status, `pc` and stack after one step. -/
def runPcStk (s : State) : Option (RunStatus × Word × List Word) :=
  (after s).map fun t => (t.run, t.pc, t.stk)

/-- What `after` reads of a step is the step's next state. -/
theorem step_of_after {s : State} {r : RunStatus} (h : (after s).map State.run = some r) :
    ∃ t, step s = .next t ∧ t.run = r := by
  unfold after at h
  cases hs : step s with
  | next t => exact ⟨t, rfl, by simpa [hs] using h⟩
  | fault _ => simp [hs] at h
  | refused _ => simp [hs] at h

/-! ### Well-formedness: each source position refuses a literal of 32768 or more -/

theorem test_wf_set : (Instr.set 0 (.lit 32768)).wf = false := by decide
theorem test_wf_push : (Instr.push (.lit 65535)).wf = false := by decide
theorem test_wf_jt_first : (Instr.jt (.lit 32768) (.lit 0)).wf = false := by decide
theorem test_wf_jt_second : (Instr.jt (.lit 0) (.lit 32775)).wf = false := by decide
theorem test_wf_add_first : (Instr.add 7 (.lit 32776) (.reg 0)).wf = false := by decide
theorem test_wf_add_second : (Instr.add 7 (.reg 0) (.lit 32768)).wf = false := by decide
theorem test_wf_largest_literal : (Instr.add 7 (.lit 32767) (.reg 7)).wf = true := by decide

/-! ### Decoding: every constructor from a word written out (R52, R53, R56) -/

theorem test_decode_hlt : decodeWords [0x0000] = .ok (.hlt, []) := by rfl
theorem test_decode_set :
    decodeWords [0x0001, 0x8001, 0x04D2] = .ok (.set 1 (.lit 1234), []) := by rfl
theorem test_decode_push : decodeWords [0x0002, 0x8007] = .ok (.push (.reg 7), []) := by rfl
theorem test_decode_pop : decodeWords [0x0003, 0x8002] = .ok (.pop 2, []) := by rfl
theorem test_decode_eq :
    decodeWords [0x0004, 0x8000, 0x8001, 0x0007] = .ok (.eq 0 (.reg 1) (.lit 7), []) := by rfl
theorem test_decode_gt :
    decodeWords [0x0005, 0x8003, 0x7FFF, 0x8004] = .ok (.gt 3 (.lit 32767) (.reg 4), []) := by rfl
theorem test_decode_jmp : decodeWords [0x0006, 0x0064] = .ok (.jmp (.lit 100), []) := by rfl
theorem test_decode_jt :
    decodeWords [0x0007, 0x8001, 0x0006] = .ok (.jt (.reg 1) (.lit 6), []) := by rfl
theorem test_decode_jf :
    decodeWords [0x0008, 0x8000, 0x0032] = .ok (.jf (.reg 0) (.lit 50), []) := by rfl
theorem test_decode_add :
    decodeWords [0x0009, 0x8000, 0x0005, 0x0006] = .ok (.add 0 (.lit 5) (.lit 6), []) := by rfl
theorem test_decode_mult :
    decodeWords [0x000A, 0x8005, 0x8006, 0x8007] = .ok (.mult 5 (.reg 6) (.reg 7), []) := by rfl
theorem test_decode_mod :
    decodeWords [0x000B, 0x8000, 0x0011, 0x0005] = .ok (.mod 0 (.lit 17) (.lit 5), []) := by rfl
theorem test_decode_and :
    decodeWords [0x000C, 0x8000, 0x7F0F, 0x0FF0] = .ok (.and 0 (.lit 32527) (.lit 4080), []) := by
  rfl
theorem test_decode_or :
    decodeWords [0x000D, 0x8000, 0x8001, 0x0001] = .ok (.or 0 (.reg 1) (.lit 1), []) := by rfl
theorem test_decode_not :
    decodeWords [0x000E, 0x8000, 0x5555] = .ok (.not 0 (.lit 21845), []) := by rfl
theorem test_decode_rmem :
    decodeWords [0x000F, 0x8001, 0x8000] = .ok (.rmem 1 (.reg 0), []) := by rfl
theorem test_decode_wmem :
    decodeWords [0x0010, 0x0064, 0x8000] = .ok (.wmem (.lit 100) (.reg 0), []) := by rfl
theorem test_decode_call : decodeWords [0x0011, 0x0005] = .ok (.call (.lit 5), []) := by rfl
theorem test_decode_ret : decodeWords [0x0012] = .ok (.ret, []) := by rfl
theorem test_decode_out : decodeWords [0x0013, 0x0041] = .ok (.out (.lit 65), []) := by rfl
theorem test_decode_in : decodeWords [0x0014, 0x8000] = .ok (.inp 0, []) := by rfl
theorem test_decode_nop : decodeWords [0x0015] = .ok (.nop, []) := by rfl

/-- The disassembler's pass over the source's first example image (S1). -/
theorem test_decode_stream :
    decodeStream [9, 32768, 5, 6, 19, 65, 0] =
      .ok [.add 0 (.lit 5) (.lit 6), .out (.lit 65), .hlt] := by rfl

/-- A table word: bits 31 to 16 are word 1; its all-zero result operand is refused (R54). -/
theorem test_decode_table_word :
    decodeTableWord 16 21 = some .nop ∧ decodeTableWord 16 2 = some (.push (.lit 0)) ∧
      decodeTableWord 32 0x80020003 = some (.pop 2) ∧ decodeTableWord 16 9 = none := by decide

/-- The next step runs the word placed by `withFetchWord`. -/
theorem test_fetch_word_runs :
    runPcStk (State.reset.withFetchWord 32 0x00070002) = some (.running, 2, [7]) := by decide

/-- The spellings of R62's examples, and one with registers in source positions. -/
theorem test_spelling :
    (Instr.add 0 (.lit 5) (.lit 6)).spelling = "add r0,5,6" ∧
      (Instr.out (.lit 65)).spelling = "out 65" ∧ Instr.hlt.spelling = "hlt" ∧
      (Instr.inp 0).spelling = "in r0" ∧ (Instr.out (.reg 0)).spelling = "out r0" ∧
      (Instr.add 0 (.reg 0) (.reg 1)).spelling = "add r0,r0,r1" := by decide

/-! ### One step, from the vectors of Part 2 -/

/-- V5: `hlt` at the last address halts with `pc` = 32768 and no fault. -/
theorem test_hlt_last_address : runPcStk (code 32767 [0]) = some (.halted, 32768, []) := by decide

/-- V4, first step: `nop` at the last address leaves `pc` = 32768, running. -/
theorem test_nop_last_address : runPcStk (code 32767 [21]) = some (.running, 32768, []) := by decide

/-- V7: a 16-bit value is copied unmasked. -/
theorem test_set_unmasked : regPc ((code 0 [1, 32768, 32769]).setReg 1 40000) 0 = some (40000, 3) := by
  decide

/-- V93: 32775 is `r7`, the last register reference. -/
theorem test_set_last_register : regPc ((code 0 [1, 32768, 32775]).setReg 7 3) 0 = some (3, 3) := by
  decide

/-- V9, on a stack that already holds an entry: the new entry is on top. -/
theorem test_push_on_top :
    runPcStk (((code 0 [2, 32768]).setReg 0 9).push 4) = some (.running, 2, [4, 9]) := by decide

/-- V11: the top entry is taken. -/
theorem test_pop_top :
    (after (((code 0 [3, 32770]).push 5).push 8)).map (fun t => (t.getReg 2, t.stk, t.pc)) =
      some (8, [5], 2) := by decide

/-- V12: `StackUnderflow(0)` with `pc` at the `pop`. -/
theorem test_pop_empty :
    runPcStk (code 0 [3, 32768]) = some (.faulted .stackUnderflow 0, 0, []) := by decide

/-- V18: the old value of the result register is compared. -/
theorem test_eq_source_is_result :
    regPc (((code 0 [4, 32768, 32768, 32769]).setReg 0 7).setReg 1 7) 0 = some (1, 4) := by decide

/-- V19: no masking before comparing. -/
theorem test_eq_unmasked : regPc ((code 0 [4, 32768, 32769, 0]).setReg 1 32768) 0 = some (0, 4) := by
  decide

/-- V22: strict. -/
theorem test_gt_strict : regPc (code 0 [5, 32768, 5, 5]) 0 = some (0, 4) := by decide

/-- V24: unsigned over 16 bits. -/
theorem test_gt_unsigned : regPc ((code 0 [5, 32768, 32769, 32767]).setReg 1 32768) 0 = some (1, 4) := by
  decide

/-- V26, first step: a bad target completes. -/
theorem test_jmp_bad_target :
    runPcStk ((code 0 [6, 32768]).setReg 0 40000) = some (.running, 40000, []) := by decide

/-- V28: not taken. -/
theorem test_jt_not_taken : runPcStk (code 14 [7, 32769, 6]) = some (.running, 17, []) := by decide

/-- V29: 32768 is non-zero. -/
theorem test_jt_bit15 : runPcStk ((code 0 [7, 32768, 100]).setReg 0 32768) = some (.running, 100, []) := by
  decide

/-- V30: taken. -/
theorem test_jf_taken : runPcStk (code 10 [8, 32768, 50]) = some (.running, 50, []) := by decide

/-- V32: no jump on 32768. -/
theorem test_jf_bit15 : runPcStk ((code 0 [8, 32768, 100]).setReg 0 32768) = some (.running, 3, []) := by
  decide

/-- V35, first step: the return address 32768 is pushed as a plain number. -/
theorem test_call_top_of_memory : runPcStk (code 32766 [17, 0]) = some (.running, 0, [32768]) := by
  decide

/-- V39: the popped value is used whole. -/
theorem test_ret_pops :
    runPcStk (((code 0 [18]).push 5).push 40000) = some (.running, 40000, [5]) := by decide

/-- V38: an empty stack halts. -/
theorem test_ret_empty : runPcStk (code 0 [18]) = some (.halted, 1, []) := by decide

/-- V42: 32767 + 1 = 0. -/
theorem test_add_wraps : regPc (code 0 [9, 32768, 32767, 1]) 0 = some (0, 4) := by decide

/-- V46: a register value above 32767. -/
theorem test_add_sixteen_bit : regPc ((code 0 [9, 32768, 32769, 1]).setReg 1 40000) 0 = some (7233, 4) := by
  decide

/-- V48: 7006652 mod 32768. -/
theorem test_mult_reduces : regPc (code 0 [10, 32768, 1234, 5678]) 0 = some (27068, 4) := by decide

/-- V52: 65535 squared. -/
theorem test_mult_largest :
    regPc ((code 0 [10, 32768, 32769, 32769]).setReg 1 65535) 0 = some (1, 4) := by decide

/-- V59: the dividend is the 16-bit value. -/
theorem test_mod_sixteen_bit : regPc ((code 0 [11, 32768, 32769, 7]).setReg 1 40000) 0 = some (2, 4) := by
  decide

/-- V58: `DivideByZero(0)`. -/
theorem test_mod_zero : runPcStk (code 0 [11, 32768, 7, 32769]) = some (.faulted .divideByZero 0, 0, []) := by
  decide

/-- V62: the result is not masked. -/
theorem test_and_unmasked :
    regPc (((code 0 [12, 32768, 32769, 32770]).setReg 1 40000).setReg 2 65535) 0 = some (40000, 4) := by
  decide

/-- V64: the result is not masked. -/
theorem test_or_unmasked : regPc ((code 0 [13, 32768, 32769, 1]).setReg 1 32768) 0 = some (32769, 4) := by
  decide

/-- V67 and V68: bit 15 of the source is ignored and of the result clear. -/
theorem test_not : regPc (code 0 [14, 32768, 21845]) 0 = some (10922, 3) ∧
    regPc ((code 0 [14, 32768, 32769]).setReg 1 40000) 0 = some (25535, 3) := by decide

/-- V72: the old register is the address, and an operand word is loaded unmasked. -/
theorem test_rmem_source_is_result : regPc ((code 0 [15, 32768, 32768]).setReg 0 2) 0 = some (32768, 3) := by
  decide

/-- V73: the address is the whole register, and the result register keeps its value. -/
theorem test_rmem_bad_address :
    (after (((code 0 [15, 32769, 32768]).setReg 0 65535).setReg 1 7)).map
      (fun t => (t.run, t.getReg 1, t.pc)) = some (.faulted .addressOutOfRange 65535, 7, 0) := by
  decide

/-- V78: stored whole. -/
theorem test_wmem_whole :
    (after ((code 0 [16, 200, 32768]).setReg 0 40000)).map (fun t => (t.memRead 200, t.pc)) =
      some (some 40000, 3) := by decide

/-- V77: the first invalid address; memory unchanged. -/
theorem test_wmem_bad_address :
    (after ((code 0 [16, 32768, 5]).setReg 0 32768)).map (fun t => (t.run, t.mem)) =
      some (.faulted .addressOutOfRange 32768, (code 0 [16, 32768, 5]).mem) := by decide

/-- V83: the low byte of `0x8142`. -/
theorem test_out_low_byte :
    (after ((code 0 [19, 32768]).setReg 0 33090)).map (fun t => (t.output, t.pc)) = some ([66], 2) := by
  decide

/-- V85: one byte consumed, upper bits cleared. -/
theorem test_in_zero_extends :
    (after (((code 0 [20, 32768]).setReg 0 40000).supplyInput [255, 1])).map
      (fun t => (t.getReg 0, t.input, t.pc)) = some (255, [1], 2) := by decide

/-- V86 and V87: `in` waits with nothing changed, and a malformed `in` faults without waiting. -/
theorem test_in_waits : after (code 0 [20, 32768]) = some (code 0 [20, 32768]) ∧
    runPcStk (code 0 [20, 5]) = some (.faulted .nonRegisterResult 5, 0, []) := by decide

/-! ### Decode faults and their order -/

/-- V90: a word of all ones is an unknown opcode. -/
theorem test_unknown_opcode : runPcStk (code 0 [65535]) = some (.faulted .unknownOpcode 65535, 0, []) := by
  decide

/-- V96: no operand is read for an unknown opcode. -/
theorem test_unknown_before_truncated :
    runPcStk (code 32765 [22]) = some (.faulted .unknownOpcode 22, 32765, []) := by decide

/-- V95: an operand word past the end of memory. -/
theorem test_truncated : runPcStk (code 32765 [9, 32768, 1]) =
    some (.faulted .truncatedOperand 32768, 32765, []) := by decide

/-- All operands are fetched before any is validated (R60; decision D2): a literal result operand at
32767 with the next word missing is `TruncatedOperand`. -/
theorem test_truncated_before_validation : runPcStk (code 32766 [1, 5]) =
    some (.faulted .truncatedOperand 32768, 32766, []) := by decide

/-- V91 and V92: operand `a` is judged before `b`, the domain before the role. -/
theorem test_operand_order : runPcStk (code 0 [1, 5, 40000]) = some (.faulted .nonRegisterResult 5, 0, []) ∧
    runPcStk (code 0 [1, 40000, 5]) = some (.faulted .invalidOperand 40000, 0, []) := by decide

/-- V94: the first out-of-domain value. -/
theorem test_invalid_operand : runPcStk (code 0 [1, 32768, 32776]) =
    some (.faulted .invalidOperand 32776, 0, []) := by decide

/-- V13: the decode fault wins over `StackUnderflow`. -/
theorem test_decode_before_execution : runPcStk (code 0 [3, 5]) =
    some (.faulted .nonRegisterResult 5, 0, []) := by decide

/-- V97: the opcode fetch at 40000. -/
theorem test_fetch_out_of_range : runPcStk { State.reset with pc := 40000 } =
    some (.faulted .addressOutOfRange 40000, 40000, []) := by decide

/-- V3: the empty image; memory reads 0, which is `hlt`. -/
theorem test_reset_halts : runPcStk State.reset = some (.halted, 1, []) := by decide

/-- V99: the image file's bytes are little-endian. -/
theorem test_image_bytes :
    wordsOfBytes [0x09, 0x00, 0x00, 0x80, 0x05, 0x00, 0x06, 0x00] = some [9, 32768, 5, 6] ∧
      bytesOfWords [9, 32768] = [0x09, 0x00, 0x00, 0x80] := by decide

/-- V98: an image of 32769 words is refused. -/
theorem test_image_too_large :
    State.resetWith (List.replicate 32769 0) 0 Config.initRegs [] = .refused .imageTooLarge :=
  State.resetWith_of_lt (by rw [List.length_replicate]; omega) 0 Config.initRegs []

/-- `State.reset` is reset with the default start address and registers (R31, R124), the empty image
and no input (log 4). -/
theorem test_reset_defaults :
    State.resetWith [] Config.startPc Config.initRegs [] = .next State.reset := by rfl

/-- The host stops at the halt address before the fetch (R122). -/
theorem test_halt_address : hostStep (some 0) State.reset = none ∧
    hostStep none State.reset = some (step State.reset) := ⟨rfl, rfl⟩

/-! ### Witnesses: states and operands that meet the hypotheses of the statements, clause by clause,
at boundary values -/

theorem witness_DecodeEncodeRoundTrip :
    (Instr.add 7 (.lit 32767) (.reg 7)).wf = true ∧ (Instr.wmem (.lit 0) (.lit 32767)).wf = true := by
  decide

theorem witness_DecodedWordsAreTheEncoding :
    decodeWords [9, 32775, 32767, 32768, 7] = .ok (.add 7 (.lit 32767) (.reg 0), [7]) := by rfl

theorem witness_DecodeStreamOfProgram :
    ∀ i ∈ [Instr.add 0 (.lit 5) (.lit 6), .out (.lit 65), .hlt], i.wf = true := by decide

theorem witness_OperandWordClasses :
    (32767 : Word).toNat ≤ 32767 ∧ (32768 : Word).toNat = 32768 + (0 : Reg).val ∧
      (32775 : Word).toNat = 32768 + (7 : Reg).val ∧ 32776 ≤ (32776 : Word).toNat ∧
      sourceOperand 32775 = .ok (.reg 7) := by decide

theorem witness_ResultOperandIsARegister :
    (20 : Word).toNat ∈ resultOpcodes ∧ (32767 : Word).toNat ≤ 32767 ∧
      32776 ≤ (32776 : Word).toNat ∧ 32768 ≤ (32768 : Word).toNat ∧
      (2 : Word).toNat ∉ resultOpcodes ∧
      (∃ i left, decodeWords [20, 32775, 0, 0] = .ok (i, left)) :=
  ⟨by decide, by decide, by decide, by decide, by decide, _, _, rfl⟩

theorem witness_StepRunsDecodedInstruction :
    (code 32767 [21]).run = .running ∧
      decodeWords (Memory.window (code 32767 [21]).mem 4 (code 32767 [21]).pc.toNat) =
        .ok (.nop, []) ∧ 3 < 4 := ⟨rfl, rfl, by decide⟩

theorem witness_StoredEncodingExecutes :
    let s := code 32764 [9, 32768, 5, 6]
    let i := Instr.add 0 (.lit 5) (.lit 6)
    s.run = .running ∧ i.wf = true ∧
      ∀ (k : Nat) (w : Word), (encode i)[k]? = some w →
        Memory.read s.mem (s.pc.toNat + k) = some w := by
  refine ⟨rfl, rfl, fun k w h => ?_⟩
  have hk : k < 4 := by
    by_contra hge
    rw [List.getElem?_eq_none (by simpa [encode] using hge)] at h
    cases h
  have hw : ∀ j : Fin 4, (encode (.add 0 (.lit 5) (.lit 6)))[j.val]? =
      Memory.read (code 32764 [9, 32768, 5, 6]).mem
        ((code 32764 [9, 32768, 5, 6]).pc.toNat + j.val) := by decide
  exact (hw ⟨k, hk⟩).symm.trans h

theorem witness_AddressOutOfRangeFaults :
    let s := { (code 0 []).setReg 1 32768 with pc := 32768 }
    s.run = .running ∧ 32768 ≤ s.pc.toNat ∧ 32768 ≤ (s.resolve (.reg 1)).toNat := by decide

theorem witness_UnknownOpcodeFaults :
    (code 32767 [22]).run = .running ∧
      (code 32767 [22]).memRead (code 32767 [22]).pc = some 22 ∧ 22 ≤ (22 : Word).toNat := by decide

theorem witness_TruncatedOperandFaults :
    let s := code 32767 [6]
    s.run = .running ∧ s.memRead s.pc = some 6 ∧ operandCounts[(6 : Word).toNat]? = some 1 ∧
      32768 ≤ s.pc.toNat + 1 ∧
      ∃ t info, step s = .next t ∧ t.run = .faulted .truncatedOperand info :=
  ⟨rfl, rfl, rfl, by decide, _, _, rfl, rfl⟩

/-- Both clauses: `set r0,32776` with `k` = 2, and `set 32767,0` with `k` = 1. -/
theorem witness_OperandChecksInOrder :
    let s := code 32765 [1, 32768, 32776]
    let u := code 32765 [1, 32767, 0]
    s.run = .running ∧ s.memRead s.pc = some 1 ∧ operandCounts[(1 : Word).toNat]? = some 2 ∧
      s.pc.toNat + 2 < 32768 ∧
      (∀ (j : Nat) (v : Word), 1 ≤ j → j < 2 → Memory.read s.mem (s.pc.toNat + j) = some v →
        v.toNat ≤ 32775 ∧ (j = 1 → (1 : Word).toNat ∈ resultOpcodes → 32768 ≤ v.toNat)) ∧
      Memory.read s.mem (s.pc.toNat + 2) = some 32776 ∧ 32776 ≤ (32776 : Word).toNat ∧
      u.run = .running ∧ u.memRead u.pc = some 1 ∧ u.pc.toNat + 2 < 32768 ∧
      Memory.read u.mem (u.pc.toNat + 1) = some 32767 ∧ (32767 : Word).toNat ≤ 32767 ∧
      (1 : Word).toNat ∈ resultOpcodes := by
  refine ⟨rfl, rfl, rfl, by decide, fun j v h1 h2 hv => ?_, rfl, by decide, rfl, rfl, by decide,
    rfl, by decide, by decide⟩
  obtain rfl : j = 1 := by omega
  obtain rfl : v = 32768 := Option.some.inj (hv.symm.trans rfl)
  exact ⟨by decide, fun _ _ => by decide⟩

theorem witness_ExecutionFaultsHaveTheirCause :
    (code 0 [3, 32768]).run = .running ∧
    (∃ t, step (code 0 [3, 32768]) = .next t ∧ t.run = .faulted .stackUnderflow 0) ∧
    (∃ t, step (code 0 [11, 32768, 7, 0]) = .next t ∧ t.run = .faulted .divideByZero 0) ∧
    (∃ t, step ((code 0 [15, 32768, 32769]).setReg 1 32768) = .next t ∧
      t.run = .faulted .addressOutOfRange 32768) :=
  ⟨rfl, step_of_after (by decide), step_of_after (by decide), step_of_after (by decide)⟩

theorem witness_MemoryPortReadsAndWrites :
    (32767 : Word).toNat ≤ 32767 ∧ (0 : Word) ≠ 32767 ∧ 32768 ≤ (32768 : Word).toNat := by decide

theorem witness_RegisterPortsGetAndSet : 7 ≤ 7 ∧ 6 ≠ 7 ∧ 8 ≤ 8 := by decide

theorem witness_ResolveOfRawWord :
    sourceOperand 32767 = .ok (.lit 32767) ∧ (32767 : Word).toNat ≤ 32767 ∧
      sourceOperand 32775 = .ok (.reg 7) ∧ 32768 ≤ (32775 : Word).toNat := by decide

theorem witness_PopTakesTheTop :
    ((code 0 []).push 8).stk = [] ++ [8] ∧ (code 0 []).stk = [] := by decide

theorem witness_EqWritesOneOrZero :
    let s := (code 0 []).setReg 0 32768
    (s.resolve (.reg 0)).toNat = (s.resolve (.reg 0)).toNat ∧
      (s.resolve (.reg 0)).toNat ≠ (s.resolve (.lit 0)).toNat := by decide

theorem witness_GtWritesOneOrZero :
    let s := (code 0 []).setReg 0 32768
    (s.resolve (.lit 32767)).toNat < (s.resolve (.reg 0)).toNat ∧
      (s.resolve (.reg 0)).toNat ≤ (s.resolve (.reg 0)).toNat := by decide

theorem witness_JtAndJfTestTheCondition :
    ((code 0 []).resolve (.lit 1)).toNat ≠ 0 ∧ ((code 0 []).resolve (.lit 0)).toNat = 0 := by decide

theorem witness_RetPopsOrHalts :
    ((code 0 []).push 2).stk = [] ++ [2] ∧ (code 0 []).stk = [] := by decide

theorem witness_ModRemainderOrDivideByZero :
    ((code 0 []).resolve (.lit 1)).toNat ≠ 0 ∧ ((code 0 []).resolve (.reg 0)).toNat = 0 := by decide

theorem witness_RmemLoadsTheWord :
    let s := (code 0 []).setReg 0 32768
    (s.resolve (.lit 32767)).toNat ≤ 32767 ∧ 32768 ≤ (s.resolve (.reg 0)).toNat := by decide

theorem witness_WmemStoresTheWord :
    let s := (code 0 []).setReg 0 32768
    (s.resolve (.lit 32767)).toNat ≤ 32767 ∧ (0 : Word) ≠ s.resolve (.lit 32767) ∧
      32768 ≤ (s.resolve (.reg 0)).toNat := by decide

theorem witness_InReadsOneByteOrWaits :
    ((code 0 []).supplyInput [255, 1]).input = 255 :: [1] ∧ (code 0 []).input = [] := by decide

theorem witness_StoppedMachineChangesNothing :
    ({ code 0 [21] with run := .halted } : State).run ≠ .running ∧
      ((code 0 [21]).faultedWith .divideByZero 0).run ≠ .running := by decide

theorem witness_FaultsArePrecise :
    ∃ t, (code 4 [3, 32768]).run = .running ∧ step (code 4 [3, 32768]) = .next t ∧
      t.run = .faulted .stackUnderflow 0 := ⟨_, rfl, rfl, rfl⟩

theorem witness_MemoryStaysCanonical :
    Memory.wf (code 0 [16, 2, 0]).mem ∧ ∃ t, step (code 0 [16, 2, 0]) = .next t :=
  ⟨by decide, _, rfl⟩

theorem witness_FaultRecordStaysLegal :
    FaultRecordInv (code 0 [22]) ∧ ∃ t, step (code 0 [22]) = .next t := ⟨trivial, _, rfl⟩

theorem witness_StackChangedOnlyByFour :
    (∃ t, step (code 0 [17, 5]) = .next t ∧ t.stk ≠ (code 0 [17, 5]).stk) ∧
    (∃ t, step ((code 0 [18]).push 2) = .next t ∧ t.stk ≠ ((code 0 [18]).push 2).stk) :=
  ⟨⟨_, rfl, by decide⟩, ⟨_, rfl, by decide⟩⟩

theorem witness_MemoryChangedOnlyByWmem :
    ∃ t, step (code 0 [16, 32767, 21]) = .next t ∧
      t.memRead 32767 ≠ (code 0 [16, 32767, 21]).memRead 32767 := ⟨_, rfl, by decide⟩

theorem witness_RegisterUseFollowsOperands :
    (∃ t, exec (.set 0 (.reg 1)) State.reset = .next t ∧
      (Instr.set 0 (.reg 1)).dest ≠ some 1) ∧
    (∃ t u, Operand.reg 0 ∉ (Instr.set 0 (.reg 1)).sources ∧
      exec (.set 0 (.reg 1)) State.reset = .next t ∧
      exec (.set 0 (.reg 1)) (State.reset.setReg (0 : Reg).val 5) = .next u) :=
  ⟨⟨_, rfl, by decide⟩, ⟨_, _, by decide, rfl, rfl⟩⟩

theorem witness_PcDefaultUnlessTransfer :
    ∃ t, exec .nop State.reset = .next t ∧ isTransfer .nop = false := ⟨_, rfl, rfl⟩

theorem witness_DefaultPcDoesNotWrap :
    let s := code 32767 [21]
    let t := { s with pc := 32768 }
    Memory.decodeAt s.mem s.pc = .ok .nop ∧ s.pc.toNat + Instr.nop.length = 32768 ∧
      t.pc = s.pc + BitVec.ofNat 16 Instr.nop.length ∧ t.run = .running := ⟨rfl, rfl, rfl, rfl⟩

theorem witness_StreamsMoveByOutAndIn :
    (∃ t, step (code 0 [19, 321]) = .next t ∧ t.output ≠ (code 0 [19, 321]).output) ∧
    (∃ t, step ((code 0 [20, 32768]).supplyInput [7]) = .next t ∧ t.input = []) :=
  ⟨⟨_, rfl, by decide⟩, ⟨_, rfl, rfl⟩⟩

theorem witness_SupplyingInputCommutes :
    ¬ Waiting ((code 0 [20, 32768]).supplyInput [7]) ∧
      ∃ t, step ((code 0 [20, 32768]).supplyInput [7]) = .next t :=
  ⟨fun h => absurd h.2.1 (by decide), _, rfl⟩

theorem witness_HaltsOnlyByHltOrRet :
    (code 0 [18]).run = .running ∧ ∃ t, step (code 0 [18]) = .next t ∧ t.run = .halted :=
  ⟨rfl, _, rfl, rfl⟩

theorem witness_CallThenRetResumes :
    ∃ t u : State, exec (.call (.lit 5)) State.reset = .next t ∧ u.stk = t.stk :=
  ⟨_, _, rfl, rfl⟩

theorem witness_BadTargetFaultsAtNextFetch :
    let s := ((code 0 []).setReg 0 32768).push 32768
    s.run = .running ∧ 32768 ≤ (32768 : Word).toNat ∧ s.resolve (.reg 0) = 32768 ∧
      (s.resolve (.lit 1)).toNat ≠ 0 ∧ (s.resolve (.lit 0)).toNat = 0 ∧ s.stk = [] ++ [32768] := by
  decide

/-- The three clauses: 21 stored at 3 and fetched there, 22 likewise, and a target stored as the
operand word of a `jmp`. -/
theorem witness_StoreSeenByNextFetch :
    (State.reset.resolve (.lit 3)).toNat ≤ 32767 ∧
    (∃ t, exec (.wmem (.lit 3) (.lit 21)) State.reset = .next t ∧ t.run = .running ∧
      ({ t with pc := 3 } : State).pc = State.reset.resolve (.lit 3) ∧
      (State.reset.resolve (.lit 21)).toNat = 21) ∧
    (∃ t, exec (.wmem (.lit 3) (.lit 22)) State.reset = .next t ∧
      22 ≤ (State.reset.resolve (.lit 22)).toNat) ∧
    (∃ t, exec (.wmem (.lit 3) (.lit 32767)) (code 2 [6]) = .next t ∧
      ({ t with pc := 2 } : State).pc.toNat + 1 = ((code 2 [6]).resolve (.lit 3)).toNat ∧
      ({ t with pc := 2 } : State).memRead 2 = some 6 ∧
      ((code 2 [6]).resolve (.lit 32767)).toNat ≤ 32767) :=
  ⟨by decide, ⟨_, rfl, rfl, rfl, rfl⟩, ⟨_, rfl, by decide⟩, ⟨_, rfl, rfl, rfl, by decide⟩⟩

theorem witness_AluAgreesWithFixedWidth :
    (1 : Word) ≠ 0 ∧ (32767 : Word).toNat ≤ 32767 := by decide

theorem witness_ResetState : (32767 : Word).toNat ≤ 32767 := by decide

theorem witness_ResetLoadsTheImage :
    (List.replicate 32768 (21 : Word)).length ≤ 32768 ∧
      32768 < (List.replicate 32769 (21 : Word)).length := by
  simp only [List.length_replicate]
  omega

theorem witness_ImageFileIsLittleEndian :
    wordsOfBytes [0x34, 0x12] = some [0x1234] ∧ ([0x1234] : List Word)[0]? = some 0x1234 ∧
      ([0x34, 0x12] : List Byte)[2 * 0]? = some 0x34 ∧
      ([0x34, 0x12] : List Byte)[2 * 0 + 1]? = some 0x12 ∧ ([0x34] : List Byte).length % 2 = 1 := by
  decide

theorem witness_DumpReloadsTheMemory : Memory.wf (code 32767 [65535]).mem := by decide

end Sys2Proof.Tests
end

section
/-! SUPPORT. Laws beside those of Sys2Proof/Laws that the state family rests on: which words a decoded
instruction came from, what an instruction's effect does to each field, which state an outcome
answers, and what an unread register can reach. -/

namespace Sys2Proof

/-! ### Encoding and length -/

open Laws in
/-- The family EncodeLength, for every instruction (R51, R56, R69). -/
theorem encodeLength : ∀ i : Instr, EncodeLength.Statement i
  | .hlt => EncodeLength.hlt
  | .set a b => EncodeLength.set a b
  | .push a => EncodeLength.push a
  | .pop a => EncodeLength.pop a
  | .eq a b c => EncodeLength.eq a b c
  | .gt a b c => EncodeLength.gt a b c
  | .jmp a => EncodeLength.jmp a
  | .jt a b => EncodeLength.jt a b
  | .jf a b => EncodeLength.jf a b
  | .add a b c => EncodeLength.add a b c
  | .mult a b c => EncodeLength.mult a b c
  | .mod a b c => EncodeLength.mod a b c
  | .and a b c => EncodeLength.and a b c
  | .or a b c => EncodeLength.or a b c
  | .not a b => EncodeLength.not a b
  | .rmem a b => EncodeLength.rmem a b
  | .wmem a b => EncodeLength.wmem a b
  | .call a => EncodeLength.call a
  | .ret => EncodeLength.ret
  | .out a => EncodeLength.out a
  | .inp a => EncodeLength.inp a
  | .nop => EncodeLength.nop

/-- The words an instruction was decoded from are those of its encoding (R58). -/
theorem decodeOp_ok {op : Word} {ws rest : List Word} {i : Instr}
    (h : decodeOp op ws = .ok (i, rest)) : i.wf = true ∧ op :: ws = encode i ++ rest := by
  have opcode {k : Word} {vs : List Word} (hk : op.toNat = k.toNat) : op :: vs = k :: vs :=
    congrArg (· :: vs) (BitVec.eq_of_toNat_eq hk)
  unfold decodeOp at h
  split at h
  case h_1 hk | h_19 hk | h_22 hk =>
    obtain ⟨rfl, rfl⟩ : _ = i ∧ ws = rest := by simpa [decodeZ] using h
    exact ⟨rfl, opcode hk⟩
  case h_3 hk | h_7 hk | h_18 hk | h_20 hk =>
    obtain ⟨a, ha, rfl, rfl⟩ := decodeS_ok h
    exact ⟨by simp [Instr.wf, Instr.sources, ha], opcode hk⟩
  case h_4 hk | h_21 hk =>
    obtain ⟨a, rfl, rfl⟩ := decodeR_ok h
    exact ⟨rfl, opcode hk⟩
  case h_2 hk | h_15 hk | h_16 hk =>
    obtain ⟨a, b, hb, rfl, rfl⟩ := decodeRS_ok h
    exact ⟨by simp [Instr.wf, Instr.sources, hb], opcode hk⟩
  case h_8 hk | h_9 hk | h_17 hk =>
    obtain ⟨a, b, ha, hb, rfl, rfl⟩ := decodeSS_ok h
    exact ⟨by simp [Instr.wf, Instr.sources, ha, hb], opcode hk⟩
  case h_5 hk | h_6 hk | h_10 hk | h_11 hk | h_12 hk | h_13 hk | h_14 hk =>
    obtain ⟨a, b, c, hb, hc, rfl, rfl⟩ := decodeRSS_ok h
    exact ⟨by simp [Instr.wf, Instr.sources, hb, hc], opcode hk⟩
  case h_23 => cases h

/-- The words an instruction was decoded from are those of its encoding (R58). -/
theorem decodeWords_ok {ws rest : List Word} {i : Instr} (h : decodeWords ws = .ok (i, rest)) :
    i.wf = true ∧ ws = encode i ++ rest := by
  cases ws with
  | nil => cases h
  | cons op ws => exact decodeOp_ok h

namespace Machine

/-- The words of an instruction decoded at `p` all lie in memory (R19, R66). -/
theorem Memory.decodeAt_le {m : Memory} {p : Word} {i : Instr} (h : Memory.decodeAt m p = .ok i) :
    p.toNat + i.length ≤ 32768 := by
  unfold Memory.decodeAt at h
  split at h
  case h_2 => cases h
  case h_1 j rest hd =>
    obtain rfl : j = i := Except.ok.inj h
    obtain ⟨henc, hpos, -⟩ := encodeLength j
    have hlen := congrArg List.length (decodeWords_ok hd).2
    rw [Memory.window_length, List.length_append, henc] at hlen
    omega

/-! ### Registers and stack -/

theorem State.setReg_setReg (s : State) (n : Nat) (v w : Word) :
    (s.setReg n v).setReg n w = s.setReg n w := by
  by_cases h : n < 8 <;> simp [State.setReg, h]

theorem State.setReg_comm (s : State) {m n : Nat} (h : m ≠ n) (v w : Word) :
    (s.setReg m v).setReg n w = (s.setReg n w).setReg m v := by
  by_cases hm : m < 8 <;> by_cases hn : n < 8 <;>
    simp [State.setReg, hm, hn, Vector.set_comm _ _ h]

/-- `Pop` gives the empty signal exactly on the empty stack (R25). -/
theorem State.pop_eq_none_iff (s : State) : s.pop = none ↔ s.stk = [] := by
  refine ⟨fun h => ?_, s.pop_of_nil⟩
  rcases s.pop_cases with ⟨hs, -⟩ | ⟨st, v, -, hp⟩
  · exact hs
  · cases hp.symm.trans h

/-! ### What an effect does to each field (R65 step 3) -/

section Effect

variable {s m : State} {i : Instr} {sig : Signal}

/-- The stack is as before, or `push` or `call` appended an entry, or `pop` or `ret` removed one
(R26). -/
theorem Effect.stk_cases (h : Effect s i m sig) :
    m.stk = s.stk ∨
    (∃ v, m.stk = s.stk ++ [v] ∧ ((∃ a, i = .push a) ∨ ∃ a, i = .call a)) ∨
    (∃ v, s.stk = m.stk ++ [v] ∧ ((∃ a, i = .pop a) ∨ i = .ret)) := by
  cases h with
  | push a => exact .inr (.inl ⟨_, rfl, .inl ⟨a, rfl⟩⟩)
  | call a => exact .inr (.inl ⟨_, rfl, .inr ⟨a, rfl⟩⟩)
  | pop a hs => exact .inr (.inr ⟨_, hs, .inl ⟨a, rfl⟩⟩)
  | ret hs => exact .inr (.inr ⟨_, hs, .inr rfl⟩)
  | _ => exact .inl rfl

/-- An effect writes the register of the result position, if there is one, and no other (R15). -/
theorem Effect.x_cases (h : Effect s i m sig) :
    m.x = s.x ∨ ∃ a v, i.dest = some a ∧ m.x = (s.setReg a.val v).x := by
  cases h with
  | hlt | nop | push | jmp | jt | jf | call | ret | retEmpty | wmem | out => exact .inl rfl
  | _ => exact .inr ⟨_, _, rfl, rfl⟩

/-- The next `pc` of an instruction that does not transfer control is the default (R18, R69). -/
theorem Effect.next_eq (h : Effect s i m sig) (hi : isTransfer i = false) :
    sig.next = s.pc + BitVec.ofNat 16 i.length := by
  cases h with
  | jmp | jt | jf | call | ret | retEmpty => cases hi
  | _ => rfl

/-- The halt flag is set by `hlt` and by `ret` on the empty stack only (R75). -/
theorem Effect.halt_cases (h : Effect s i m sig) (hh : sig.halt = true) :
    i = .hlt ∨ (i = .ret ∧ s.stk = []) := by
  cases h with
  | hlt => exact .inl rfl
  | retEmpty hs => exact .inr ⟨rfl, hs⟩
  | jt | jf => split at hh <;> cases hh
  | _ => cases hh

end Effect

/-! ### What is known of the state an outcome answers -/

/-- Everything a state that `exec` answers can be (`exec_cases` read backwards). -/
theorem exec_next {i : Instr} {s t : State} (h : exec i s = .next t) :
    (∃ m sig, Effect s i m sig ∧ t = m.apply sig) ∨
    (∃ kind info, Raises s i kind info ∧ t = { s with run := .faulted kind info }) ∨
    ((∃ a, i = .inp a) ∧ s.input = [] ∧ t = s) := by
  rcases exec_cases i s with ⟨m, sig, he, h'⟩ | ⟨kind, info, hf, h'⟩ | ⟨ha, hin, h'⟩
  all_goals
    obtain rfl := Host.Outcome.next.inj (h.symm.trans h')
  · exact .inl ⟨m, sig, he, rfl⟩
  · exact .inr (.inl ⟨kind, info, hf, rfl⟩)
  · exact .inr (.inr ⟨ha, hin, rfl⟩)

/-- Everything a state that `step` answers can be: the same one, the same with a fault recorded, or
the effect of the decoded instruction and then its signal (R65, R70, R71, R113). -/
theorem step_next {s t : State} (h : step s = .next t) :
    t = s ∨ (∃ kind info, t = { s with run := .faulted kind info }) ∨
    ∃ i m sig, Memory.decodeAt s.mem s.pc = .ok i ∧ Effect s i m sig ∧ t = m.apply sig := by
  rcases step_cases s with ⟨-, h'⟩ | ⟨kind, info, -, -, h'⟩ | ⟨i, -, hd, h'⟩
  · exact .inl (Host.Outcome.next.inj (h.symm.trans h'))
  · exact .inr (.inl ⟨kind, info, Host.Outcome.next.inj (h.symm.trans h')⟩)
  · rcases exec_next (h'.symm.trans h) with ⟨m, sig, he, ht⟩ | ⟨kind, info, -, ht⟩ | ⟨-, -, ht⟩
    · exact .inr (.inr ⟨i, m, sig, hd, he, ht⟩)
    · exact .inr (.inl ⟨kind, info, ht⟩)
    · exact .inl ht

/-- A fetch at 32768 or more faults with `pc` as `info` (R66, R109). -/
theorem step_of_pc_ge {s : State} (hr : s.run = .running) (hp : 32768 ≤ s.pc.toNat) :
    step s = .next { s with run := .faulted .addressOutOfRange s.pc } := by
  refine step_of_decodeFault hr ?_
  rw [Memory.decodeAt, Memory.window, Memory.read_of_le s.mem hp]
  rfl

/-- A step that answers `t` is the first of any run (Host/Core.lean). -/
theorem core_run_succ {s t : State} (h : step s = .next t) (n : Nat) :
    core.run (n + 1) s = core.run n t := by
  have hs : core.step s = .next t := h
  simp only [Host.Core.run, hs]

/-! ### An effect, a fault and the wait determine what `exec` answers -/

theorem Effect.exec_eq {s m : State} {i : Instr} {sig : Signal} (h : Effect s i m sig) :
    exec i s = .next (m.apply sig) := by
  cases h with
  | pop a hs => rw [exec, execPop, s.pop_of_concat hs]; rfl
  | ret hs => rw [exec, execRet, s.pop_of_concat hs]
  | retEmpty hs => rw [exec, execRet, s.pop_of_nil hs]
  | mod a b c hc => rw [exec, execMod, aluMod_of_ne _ hc]; rfl
  | rmem a b ha => rw [exec, execRmem, s.memRead_of_lt ha]; rfl
  | wmem a b ha => rw [exec, execWmem, s.memWrite_of_lt ha]; rfl
  | inp a hin => rw [exec, execInp, s.inByte_of_cons hin]; rfl
  | _ => rfl

theorem Raises.exec_eq {s : State} {i : Instr} {kind : Fault} {info : Word}
    (h : Raises s i kind info) : exec i s = .next { s with run := .faulted kind info } := by
  cases h with
  | pop a hs => rw [exec, execPop, s.pop_of_nil hs]; rfl
  | mod a b c hc => rw [exec, execMod, aluMod_of_zero _ hc]; rfl
  | rmem a b ha => rw [exec, execRmem, s.memRead_of_le ha]; rfl
  | wmem a b ha => rw [exec, execWmem, s.memWrite_of_le ha]; rfl

theorem exec_inp_of_nil {s : State} (a : Reg) (h : s.input = []) : exec (.inp a) s = .next s := by
  rw [exec, execInp, s.inByte_of_nil h]

/-! ### A register that no source position names (R15) -/

section UnreadRegister

variable {s : State} {i : Instr} {r : Reg} {v : Word}

/-- `u` is what becomes of `t` when register `r` held `v` in the state `s` before: either `r` has been
overwritten since, and `u` is `t`, or `r` is untouched and still holds `v`. -/
def DiffersAt (r : Reg) (v : Word) (s t u : State) : Prop :=
  u = t ∨ (u = t.setReg r.val v ∧ t.getReg r.val = s.getReg r.val)

/-- A state with the registers of `s` keeps the difference. -/
theorem DiffersAt.of_x_eq {t : State} (h : t.x = s.x) : DiffersAt r v s t (t.setReg r.val v) :=
  .inr ⟨rfl, State.getReg_congr h r.val⟩

/-- A write to a register keeps the difference, or removes it when it overwrites `r`. -/
theorem DiffersAt.setReg {t : State} (h : t.x = s.x) (a : Reg) (w : Word) :
    DiffersAt r v s (t.setReg a.val w) ((t.setReg r.val v).setReg a.val w) := by
  by_cases ha : r.val = a.val
  · exact .inl (by rw [ha, State.setReg_setReg])
  · exact .inr ⟨State.setReg_comm t ha v w,
      (State.getReg_setReg_other t ha w).trans (State.getReg_congr h r.val)⟩

/-- Applying a signal touches no register, so it keeps the difference. -/
theorem DiffersAt.apply {t u : State} (h : DiffersAt r v s t u) (sig : Signal) :
    DiffersAt r v s (t.apply sig) (u.apply sig) := by
  rcases h with rfl | ⟨rfl, hr⟩
  · exact .inl rfl
  · exact .inr ⟨rfl, hr⟩

theorem resolve_setReg_of_not_mem (hr : Operand.reg r ∉ i.sources) :
    ∀ o ∈ i.sources, (s.setReg r.val v).resolve o = s.resolve o := fun _ ho =>
  s.resolve_setReg_other (ne_of_mem_of_not_mem ho hr).symm v

/-- The effect of an instruction on a state with an unread register changed: the same signal, and no
more than that register different. -/
theorem Effect.setReg {m : State} {sig : Signal} (hr : Operand.reg r ∉ i.sources)
    (h : Effect s i m sig) :
    ∃ m', Effect (s.setReg r.val v) i m' sig ∧ DiffersAt r v s m m' := by
  have hres := resolve_setReg_of_not_mem (s := s) (v := v) hr
  cases h <;> simp only [Instr.sources, List.mem_cons, List.not_mem_nil, or_false, forall_eq_or_imp,
    forall_eq] at hres
  case hlt => exact ⟨_, .hlt, .of_x_eq rfl⟩
  case nop => exact ⟨_, .nop, .of_x_eq rfl⟩
  case ret hs => exact ⟨_, .ret hs, .of_x_eq rfl⟩
  case retEmpty hs => exact ⟨_, .retEmpty hs, .of_x_eq rfl⟩
  case pop a st w hs => exact ⟨_, .pop a hs, .setReg (t := { s with stk := st }) rfl a w⟩
  case inp a b rest hin => exact ⟨_, .inp a hin, .setReg (t := { s with input := rest }) rfl a _⟩
  case push a | call a | jmp a | out a =>
    rw [← hres]
    exact ⟨_, by constructor, .of_x_eq rfl⟩
  case jt a b | jf a b =>
    rw [← hres.1, ← hres.2]
    exact ⟨_, by constructor, .of_x_eq rfl⟩
  case set a b | not a b =>
    rw [← hres]
    exact ⟨_, by constructor, .setReg rfl a _⟩
  case eq a b c | gt a b c | add a b c | mult a b c | and a b c | or a b c =>
    rw [← hres.1, ← hres.2]
    exact ⟨_, by constructor, .setReg rfl a _⟩
  case mod a b c hc =>
    rw [← hres.2] at hc
    rw [← hres.1, ← hres.2]
    exact ⟨_, .mod a b c hc, .setReg rfl a _⟩
  case rmem a b ha =>
    rw [← hres] at ha ⊢
    exact ⟨_, .rmem a b ha, .setReg rfl a _⟩
  case wmem a b ha =>
    rw [← hres.1] at ha ⊢
    rw [← hres.2]
    exact ⟨_, .wmem a b ha, .of_x_eq rfl⟩

/-- An unread register does not decide a fault, nor its `info`. -/
theorem Raises.setReg {kind : Fault} {info : Word} (hr : Operand.reg r ∉ i.sources)
    (h : Raises s i kind info) : Raises (s.setReg r.val v) i kind info := by
  have hres := resolve_setReg_of_not_mem (s := s) (v := v) hr
  cases h with
  | pop a hs => exact .pop a hs
  | mod a b c hc => exact .mod a b c (by rwa [hres c (by simp [Instr.sources])])
  | rmem a b ha =>
    rw [← hres b (by simp [Instr.sources])] at ha ⊢
    exact .rmem a b ha
  | wmem a b ha =>
    rw [← hres a (by simp [Instr.sources])] at ha ⊢
    exact .wmem a b ha

/-- Changing an unread register before the instruction changes at most that register after it. -/
theorem exec_setReg {t : State} (hr : Operand.reg r ∉ i.sources) (h : exec i s = .next t) :
    ∃ u, exec i (s.setReg r.val v) = .next u ∧ DiffersAt r v s t u := by
  rcases exec_cases i s with ⟨m, sig, he, h'⟩ | ⟨kind, info, hf, h'⟩ | ⟨⟨a, rfl⟩, hin, h'⟩
  all_goals
    obtain rfl := Host.Outcome.next.inj (h'.symm.trans h)
  · obtain ⟨m', he', hd⟩ := he.setReg (v := v) hr
    exact ⟨_, he'.exec_eq, hd.apply sig⟩
  · exact ⟨_, (hf.setReg hr).exec_eq, .inr ⟨rfl, rfl⟩⟩
  · exact ⟨_, exec_inp_of_nil a hin, .of_x_eq rfl⟩

end UnreadRegister

end Machine

end Sys2Proof
end

section
/-! SUPPORT. The obligations of the state family, each from the laws of the ports, of `exec` and of
`step`. -/

namespace Sys2Proof.Machine

/-! ### The ports -/

/-- Settles O16: `Get` after `Set` by the register's number, and `Set` is an update of `x` alone. -/
theorem registerPortsGetAndSet : Obligations.RegisterPortsGetAndSet := by
  intro s n v
  exact ⟨fun hn => s.getReg_setReg_same (Nat.lt_succ_of_le hn) v,
    fun m hm => s.getReg_setReg_other hm v,
    fun hn => ⟨s.getReg_of_le hn, s.setReg_of_le hn v⟩,
    State.memRead_congr (s.setReg_mem n v), rfl, rfl, rfl, rfl, rfl⟩

/-- Settles O17: the pushed entry is the one that `Pop` takes, and `Push` is an update of `stk`
alone. -/
theorem stackPortsRoundTrip : Obligations.StackPortsRoundTrip := by
  intro s v
  exact ⟨(s.push v).pop_of_concat rfl, s.pop_eq_none_iff, s.push_stk v,
    fun r => State.getReg_congr (s.push_x v) r.val, State.memRead_congr (s.push_mem v),
    rfl, rfl, rfl, rfl⟩

/-! ### Steps -/

/-- Settles O39, by induction on the number of steps. -/
theorem stoppedMachineChangesNothing : Obligations.StoppedMachineChangesNothing := by
  intro s n hr
  induction n with
  | zero => rfl
  | succ n ih => exact (core_run_succ (step_of_stopped hr) n).trans ih

/-- Settles O45: a fault keeps the stack, so the change is that of the decoded instruction's
effect. -/
theorem stackChangedOnlyByFour : Obligations.StackChangedOnlyByFour := by
  intro s t h hne
  rcases step_next h with rfl | ⟨kind, info, rfl⟩ | ⟨i, m, sig, hd, he, rfl⟩
  · exact absurd rfl hne
  · exact absurd rfl hne
  · rw [hd]
    rcases he.stk_cases with hs | ⟨v, hs, hi⟩ | ⟨v, hs, hi⟩
    · exact absurd hs hne
    · exact .inl ⟨v, hs, by simpa using hi⟩
    · exact .inr ⟨v, hs, by simpa using hi⟩

/-- Settles O52: only a signal with the halt flag halts a running machine. -/
theorem haltsOnlyByHltOrRet : Obligations.HaltsOnlyByHltOrRet := by
  intro s t hr h ht
  rcases step_next h with rfl | ⟨kind, info, rfl⟩ | ⟨i, m, sig, hd, he, rfl⟩
  · cases hr.symm.trans ht
  · cases ht
  · have hh : sig.halt = true := by
      by_contra hh
      rw [State.apply_run, if_neg hh, he.run_eq, hr] at ht
      cases ht
    rw [hd]
    rcases he.halt_cases hh with rfl | ⟨rfl, hs⟩
    · exact .inl rfl
    · exact .inr ⟨rfl, hs⟩

/-! ### Instructions -/

/-- Settles O47: the first part by the one register an effect writes, the second by
`exec_setReg`. -/
theorem registerUseFollowsOperands : Obligations.RegisterUseFollowsOperands := by
  constructor
  · intro i s t r h hdest
    rcases exec_next h with ⟨m, sig, he, rfl⟩ | ⟨-, -, -, rfl⟩ | ⟨-, -, rfl⟩
    · rcases he.x_cases with hx | ⟨a, w, ha, hx⟩
      · exact State.getReg_congr hx r.val
      · have hne : r.val ≠ a.val := fun hra => hdest (by rw [ha, Fin.ext hra])
        calc (m.apply sig).getReg r.val
            = (s.setReg a.val w).getReg r.val := State.getReg_congr hx r.val
          _ = s.getReg r.val := s.getReg_setReg_other hne w
    · rfl
    · rfl
  · intro i s t u r v hr ht hu
    obtain ⟨u', hu', hd⟩ := exec_setReg (v := v) hr ht
    obtain rfl := Host.Outcome.next.inj (hu'.symm.trans hu)
    rcases hd with rfl | ⟨rfl, hkept⟩
    · exact ⟨rfl, rfl, rfl, rfl, ⟨rfl, rfl⟩, fun _ _ => rfl, .inl rfl⟩
    · exact ⟨rfl, rfl, rfl, rfl, ⟨rfl, rfl⟩,
        fun q hq => t.getReg_setReg_other (Fin.val_ne_of_ne hq) v,
        .inr ⟨t.getReg_setReg_same r.isLt v, hkept⟩⟩

/-- Settles O48: the signal of an instruction that is no transfer is the default one. -/
theorem pcDefaultUnlessTransfer : Obligations.PcDefaultUnlessTransfer := by
  intro i s t h hi
  rcases exec_next h with ⟨m, sig, he, rfl⟩ | ⟨kind, info, -, rfl⟩ | ⟨⟨a, rfl⟩, hin, rfl⟩
  · exact .inl (he.next_eq hi)
  · exact .inr ⟨rfl, .inl ⟨kind, info, rfl⟩⟩
  · exact .inr ⟨rfl, .inr ⟨a, rfl, hin⟩⟩

/-- Settles O49: the instruction's words lie in memory, so the 16-bit sum is the exact one, and 32768
is no address to fetch from. -/
theorem defaultPcDoesNotWrap : Obligations.DefaultPcDoesNotWrap := by
  intro s i hd
  have hle := Memory.decodeAt_le hd
  have hsum : (s.pc + BitVec.ofNat 16 i.length).toNat = s.pc.toNat + i.length := by
    rw [BitVec.toNat_add, BitVec.toNat_ofNat]
    omega
  refine ⟨hle, hsum, fun t hend hpc hr => ?_⟩
  have htop : t.pc = 32768 := BitVec.eq_of_toNat_eq (by rw [hpc, hsum, hend]; rfl)
  have hge : 32768 ≤ t.pc.toNat := by rw [htop]; decide
  rw [step_of_pc_ge hr hge, htop]

/-! ### Reset -/

/-- Settles O58: the loaded image reads as the image, and a longer one is refused. -/
theorem resetLoadsTheImage : Obligations.ResetLoadsTheImage := by
  intro image startPc initRegs input
  refine ⟨fun hlen => ?_, fun hlen => State.resetWith_of_lt hlen startPc initRegs input⟩
  obtain ⟨t, ht, hmem, hx, hstk, hpc, hrun, hin, hout⟩ :=
    State.resetWith_next hlen startPc initRegs input
  refine ⟨t, ht, fun addr ha => ?_, fun r => ?_, hstk, hpc, hrun, hout, hin, ?_⟩
  · rw [t.memRead_of_lt (Nat.lt_succ_of_le ha), hmem, Memory.lookup_ofImage]
  · rw [State.getReg_reg, hx]
    rfl
  · rw [hmem]
    exact Memory.wf_ofImage hlen

/-- Settles O57: every field of `State.reset` is the spec's reset value, and nothing is listed in its
memory. -/
theorem resetState : Obligations.ResetState := by
  refine ⟨State.reset_pc, State.reset_run, State.reset_stk, State.reset_output, fun r => ?_,
    fun addr ha => ?_⟩
  · simp [Config.initRegs]
  · rw [State.memRead_of_lt _ (Nat.lt_succ_of_le ha), State.reset_mem, Memory.lookup_nil]

/-- Settles O44: no entry is listed, and no fault is recorded. -/
theorem resetMeetsTheInvariants : Obligations.ResetMeetsTheInvariants :=
  ⟨Memory.wf_nil, trivial⟩

end Sys2Proof.Machine
end

section
/-! SUPPORT. Laws the memory family rests on: what an instruction's effect does to memory, what a step
does with the word read at `pc`, and that an image file is the bytes of the words it holds. -/

namespace Sys2Proof.Machine

/-! ### Memory under an effect (R35, R36) -/

/-- Memory is as before, or `wmem` stored its second operand at its first, a valid address (R36,
R99). -/
theorem Effect.mem_cases {s m : State} {i : Instr} {sig : Signal} (h : Effect s i m sig) :
    m.mem = s.mem ∨
    ∃ a b, i = .wmem a b ∧ (s.resolve a).toNat < 32768 ∧
      m.mem = Memory.store s.mem (s.resolve a).toNat (s.resolve b) := by
  cases h with
  | wmem a b ha => exact .inr ⟨a, b, rfl, ha, rfl⟩
  | _ => exact .inl rfl

/-- What a step leaves in memory: what was there, or what the `wmem` at `pc` stored (R36). -/
theorem step_mem_cases {s t : State} (h : step s = .next t) :
    t.mem = s.mem ∨
    ∃ a b, Memory.decodeAt s.mem s.pc = .ok (.wmem a b) ∧ (s.resolve a).toNat < 32768 ∧
      t.mem = (s.storeWord (s.resolve a).toNat (s.resolve b)).mem := by
  rcases step_next h with rfl | ⟨kind, info, rfl⟩ | ⟨i, m, sig, hd, he, rfl⟩
  · exact .inl rfl
  · exact .inl rfl
  · rcases he.mem_cases with hm | ⟨a, b, rfl, ha, hm⟩
    · exact .inl hm
    · exact .inr ⟨a, b, hd, ha, hm⟩

/-- After `wmem` to a valid address, that address reads as the stored word (R35, R99). -/
theorem memRead_of_exec_wmem {s t : State} {a b : Operand} (ha : (s.resolve a).toNat < 32768)
    (h : exec (.wmem a b) s = .next t) : t.memRead (s.resolve a) = some (s.resolve b) := by
  obtain rfl := Host.Outcome.next.inj ((Effect.wmem a b ha).exec_eq.symm.trans h)
  exact s.memRead_storeWord_same ha (s.resolve b)

/-- Outside the address space a canonical memory lists nothing, so it reads as the fill. -/
theorem Memory.lookup_of_le {m : Memory} (h : Memory.wf m) {a : Nat} (ha : 32768 ≤ a) :
    Memory.lookup m a = 0 :=
  Memory.lookup_eq_fill fun c hc => Nat.ne_of_lt (Nat.lt_of_lt_of_le (h.2 c hc).1 ha)

/-! ### The fetch, from the words read at `pc` (R65, R66) -/

/-- A window starts with the word at its address. -/
theorem Memory.window_of_read {m : Memory} {p : Nat} {w : Word} (h : Memory.read m p = some w)
    (n : Nat) : Memory.window m (n + 1) p = w :: Memory.window m n (p + 1) := by
  simp only [Memory.window, h]

theorem step_of_decodeWords {s : State} (hr : s.run = .running) {i : Instr} {rest : List Word}
    (h : decodeWords (Memory.window s.mem 4 s.pc.toNat) = .ok (i, rest)) : step s = exec i s :=
  step_of_decodeAt hr (by simp only [Memory.decodeAt, Config.maxLength, h])

/-- The instruction that a readable opcode word selects is executed, its operands taken from the words
after it (R60, R65). -/
theorem step_of_opcode {s : State} (hr : s.run = .running) {op : Word} {i : Instr}
    {rest : List Word} (hop : s.memRead s.pc = some op)
    (h : decodeOp op (Memory.window s.mem 3 (s.pc.toNat + 1)) = .ok (i, rest)) :
    step s = exec i s :=
  step_of_decodeWords hr (by rw [Memory.window_of_read hop]; exact h)

/-- An opcode word of 22 or more faults, whatever follows it (R57, R105). -/
theorem step_of_unknownOpcode {s : State} (hr : s.run = .running) {op : Word}
    (hop : s.memRead s.pc = some op) (h : 22 ≤ op.toNat) :
    step s = .next { s with run := .faulted .unknownOpcode op } := by
  refine step_of_decodeFault hr ?_
  rw [Memory.decodeAt, Memory.window_of_read hop, decodeWords, decodeOp_unknown h]
  rfl

/-- A literal word in a source position is that literal (R53). -/
theorem sourceOperand_of_le {w : Word} (h : w.toNat ≤ 32767) : sourceOperand w = .ok (.lit w) := by
  rw [sourceOperand, classify_literal h]

/-- Opcode 6 is `jmp`, of format `S` (R56). -/
theorem decodeOp_jmp (ws : List Word) : decodeOp 6 ws = decodeS .jmp ws := rfl

/-- A `jmp` opcode word followed by a literal jumps to that literal (R53, R84). -/
theorem step_of_jmp_lit {s : State} (hr : s.run = .running) {w : Word}
    (hop : s.memRead s.pc = some 6) (hw : Memory.read s.mem (s.pc.toNat + 1) = some w)
    (hlit : w.toNat ≤ 32767) : step s = exec (.jmp (.lit w)) s := by
  refine step_of_opcode hr hop (rest := Memory.window s.mem 2 (s.pc.toNat + 1 + 1)) ?_
  rw [Memory.window_of_read hw, decodeOp_jmp, decodeS, sourceOperand_of_le hlit]
  rfl

/-! ### The image file (R39) -/

/-- The low byte of a word put together from two bytes. -/
theorem lowByte_append (lo hi : Byte) : lowByte (hi ++ lo) = lo := by
  have hlo := lo.isLt
  refine BitVec.eq_of_toNat_eq ?_
  rw [lowByte_toNat, word_of_bytes_toNat]
  omega

/-- The high byte of a word put together from two bytes. -/
theorem highByte_append (lo hi : Byte) : highByte (hi ++ lo) = hi := by
  have hlo := lo.isLt
  have hhi := hi.isLt
  refine BitVec.eq_of_toNat_eq ?_
  simp only [highByte, BitVec.toNat_setWidth, BitVec.toNat_ushiftRight, word_of_bytes_toNat,
    Nat.shiftRight_eq_div_pow]
  omega

/-- A word is its low byte plus 256 times its high byte (R39). -/
theorem toNat_eq_lowByte_add_highByte (w : Word) :
    w.toNat = (lowByte w).toNat + 256 * (highByte w).toNat := by
  rw [← word_of_bytes_toNat, highByte_append_lowByte]

/-- Words written out as bytes are read back. -/
theorem wordsOfBytes_bytesOfWords (ws : List Word) : wordsOfBytes (bytesOfWords ws) = some ws := by
  induction ws with
  | nil => rfl
  | cons w ws ih =>
    rw [bytesOfWords_cons, wordsOfBytes, ih, Option.map_some, highByte_append_lowByte]

/-- A file that is read as `ws` holds the bytes of `ws` and nothing else. -/
theorem eq_bytesOfWords {file : List Byte} {ws : List Word} (h : wordsOfBytes file = some ws) :
    file = bytesOfWords ws := by
  induction file using wordsOfBytes.induct generalizing ws with
  | case1 =>
    obtain rfl := Option.some.inj h
    rfl
  | case2 b => cases h
  | case3 lo hi rest ih =>
    rw [wordsOfBytes, Option.map_eq_some_iff] at h
    obtain ⟨ws, hws, rfl⟩ := h
    rw [bytesOfWords_cons, lowByte_append, highByte_append, ← ih hws]

/-- Byte `2i` is the low byte of word `i`, byte `2i + 1` its high byte (R39). -/
theorem bytesOfWords_getElem? (ws : List Word) (i : Nat) :
    (bytesOfWords ws)[2 * i]? = ws[i]?.map lowByte ∧
    (bytesOfWords ws)[2 * i + 1]? = ws[i]?.map highByte := by
  induction ws generalizing i with
  | nil => simp
  | cons w ws ih =>
    cases i with
    | zero => exact ⟨rfl, rfl⟩
    | succ i => exact ih i

/-- A file of an odd number of bytes is no image (R39). -/
theorem wordsOfBytes_of_odd {file : List Byte} (h : file.length % 2 = 1) :
    wordsOfBytes file = none := by
  cases hf : wordsOfBytes file with
  | none => rfl
  | some ws =>
    rw [eq_bytesOfWords hf, bytesOfWords_length] at h
    omega

/-- A canonical memory is the one its own words load (R50, R128). -/
theorem Memory.ofImage_dumpWords {s : State} (h : Memory.wf s.mem) :
    Memory.ofImage s.dumpWords = s.mem := by
  refine Memory.ext_of_wf (Memory.wf_ofImage s.dumpWords_length.le) h fun a => ?_
  rw [Memory.lookup_ofImage, List.getD_eq_getElem?_getD]
  rcases Nat.lt_or_ge a 32768 with ha | ha
  · rw [s.dumpWords_getElem? ha, Option.getD_some]
  · rw [List.getElem?_eq_none (by rwa [s.dumpWords_length]), Memory.lookup_of_le h ha]
    rfl

end Sys2Proof.Machine
end

section
/-! SUPPORT. The obligations of the memory family, each from the laws of memory, of the step and of
the image file. -/

namespace Sys2Proof.Machine

/-- Settles O42: a step leaves memory alone or stores one word at a valid address, and a store keeps
the form. -/
theorem memoryStaysCanonical : Obligations.MemoryStaysCanonical := by
  intro s t hwf h
  rcases step_mem_cases h with hm | ⟨a, b, -, ha, hm⟩
  · rwa [hm]
  · rw [hm]
    exact Memory.wf_store hwf ha (s.resolve b)

/-- Settles O15: the port at a valid address is `storeWord`, and past the end both directions fail. -/
theorem memoryPortReadsAndWrites : Obligations.MemoryPortReadsAndWrites := by
  intro s a v
  refine ⟨fun ha => ?_, fun ha => ⟨s.memRead_of_le ha, s.memWrite_of_le ha v⟩⟩
  have hlt : a.toNat < 32768 := Nat.lt_succ_of_le ha
  exact ⟨⟨_, s.memRead_of_lt hlt⟩, _, s.memWrite_of_lt hlt v, s.memRead_storeWord_same hlt v,
    fun b hb => s.memRead_storeWord_other hb v,
    fun r => State.getReg_congr (s.storeWord_x a.toNat v) r.val, rfl, rfl, rfl, rfl, rfl⟩

/-- Settles O46: memory differs only by the store of a `wmem`, and a store shows at its own address
only. -/
theorem memoryChangedOnlyByWmem : Obligations.MemoryChangedOnlyByWmem := by
  intro s t addr h hne
  rcases step_mem_cases h with hm | ⟨a, b, hd, ha, hm⟩
  · exact absurd (State.memRead_congr hm addr) hne
  · rw [State.memRead_congr hm] at hne ⊢
    have haddr : s.resolve a = addr := by
      by_contra hother
      exact hne (s.memRead_storeWord_other (Ne.symm hother) _)
    exact ⟨a, b, hd, haddr, by rw [← haddr, s.memRead_storeWord_same ha]⟩

/-- Settles O55: the stored word is what the fetch reads, as the opcode word or as the word after a
`jmp` opcode. -/
theorem storeSeenByNextFetch : Obligations.StoreSeenByNextFetch := by
  intro s t u a b ha h hmem hr
  have hread : u.memRead (s.resolve a) = some (s.resolve b) :=
    (State.memRead_congr hmem _).trans (memRead_of_exec_wmem (Nat.lt_succ_of_le ha) h)
  refine ⟨fun hpc hb => ?_, fun hpc hb => ?_, fun hpc hop hb => ?_⟩
  · have h21 : s.resolve b = 21 := BitVec.eq_of_toNat_eq hb
    rw [← hpc, h21] at hread
    exact step_of_opcode hr hread rfl
  · rw [← hpc] at hread
    exact step_of_unknownOpcode hr hread hb
  · rw [State.memRead, ← hpc] at hread
    exact step_of_jmp_lit hr hop hread hb

/-- Settles O59: a file that is read as words consists of their bytes, low one first, so its length
is even. -/
theorem imageFileIsLittleEndian : Obligations.ImageFileIsLittleEndian := by
  refine ⟨fun file ws h => ?_, wordsOfBytes_bytesOfWords, fun file startPc initRegs input h => ?_⟩
  · obtain rfl := eq_bytesOfWords h
    refine ⟨bytesOfWords_length ws, fun i w lo hi hw hlo hhi => ?_⟩
    rw [(bytesOfWords_getElem? ws i).1, hw] at hlo
    rw [(bytesOfWords_getElem? ws i).2, hw] at hhi
    obtain rfl := Option.some.inj hlo
    obtain rfl := Option.some.inj hhi
    exact toNat_eq_lowByte_add_highByte w
  · rw [State.resetFromBytes, wordsOfBytes_of_odd h]

/-- Settles O60: the dump is read back as the words of memory, and these load a memory that reads
alike and is canonical too. -/
theorem dumpReloadsTheMemory : Obligations.DumpReloadsTheMemory := by
  intro s startPc initRegs input hwf
  refine ⟨by rw [State.dump, bytesOfWords_length, s.dumpWords_length], ?_⟩
  obtain ⟨t, ht, hmem, -⟩ := State.resetWith_next s.dumpWords_length.le startPc initRegs input
  refine ⟨t, ?_, hmem.trans (Memory.ofImage_dumpWords hwf)⟩
  rw [State.resetFromBytes, State.dump, wordsOfBytes_bytesOfWords]
  exact ht

/-- Settles O8: `decodeAt` decodes the window at `pc`, whose words are those that memory holds. -/
theorem stepRunsDecodedInstruction : Obligations.StepRunsDecodedInstruction :=
  ⟨fun _ _ _ hr h => step_of_decodeWords hr h, fun m p _ hk => Memory.window_getElem? m p hk⟩

end Sys2Proof.Machine
end

section
/-! SUPPORT. Laws the encoding family rests on: the formats of R52 as data, read one operand word at a
time; the decoder on encoded instructions; and the classes of an operand word, by value and by bits. -/

namespace Sys2Proof

/-! ### The formats (R52): which operand words an opcode takes -/

/-- An operand format of R52, with the instruction its operands are put into. -/
inductive Format where
  | z (i : Instr)
  | s (mk : Operand → Instr)
  | r (mk : Reg → Instr)
  | rs (mk : Reg → Operand → Instr)
  | ss (mk : Operand → Operand → Instr)
  | rss (mk : Reg → Operand → Operand → Instr)

namespace Format

/-- How many operand words a format takes. -/
def count : Format → Nat
  | z _ => 0
  | s _ | r _ => 1
  | rs _ | ss _ => 2
  | rss _ => 3

/-- Whether a format's first operand is a result position (R54). -/
def hasResult : Format → Bool
  | r _ | rs _ | rss _ => true
  | z _ | s _ | ss _ => false

theorem count_pos {f : Format} (h : f.hasResult = true) : 0 < f.count := by
  cases f with
  | z | s | ss => cases h
  | r | rs | rss => exact Nat.succ_pos _

theorem eq_z_of_count {f : Format} (h : f.count = 0) : ∃ i, f = z i := by
  cases f with
  | z i => exact ⟨i, rfl⟩
  | _ => cases h

theorem count_le (f : Format) : f.count ≤ 3 := by
  cases f <;> simp [count]

/-- The model's decoder of a format. -/
def decode : Format → List Word → Decoded
  | z i => decodeZ i
  | s mk => decodeS mk
  | r mk => decodeR mk
  | rs mk => decodeRS mk
  | ss mk => decodeSS mk
  | rss mk => decodeRSS mk

/-- The format that is left once the first operand word is read, or what refuses that word (R60 step
4). A format without operands reads nothing. -/
def read : Format → Word → Except DecodeError Format
  | z i, _ => .ok (z i)
  | s mk, w => (sourceOperand w).map fun o => z (mk o)
  | r mk, w => (resultOperand w).map fun n => z (mk n)
  | rs mk, w => (resultOperand w).map fun n => s (mk n)
  | ss mk, w => (sourceOperand w).map fun o => s (mk o)
  | rss mk, w => (resultOperand w).map fun n => ss (mk n)

/-- Too few words are refused before any of them is judged (R60 step 3). -/
theorem decode_of_length_lt {f : Format} {ws : List Word} (h : ws.length < f.count) :
    f.decode ws = .error (.truncatedOperand (ws.length + 1)) := by
  cases f with
  | z => cases h
  | s | r =>
    match ws, h with
    | [], _ => rfl
  | rs | ss =>
    match ws, h with
    | [], _ | [_], _ => rfl
  | rss =>
    match ws, h with
    | [], _ | [_], _ | [_, _], _ => rfl

/-- With enough words, decoding is to read the first operand and go on with the format left. -/
theorem decode_cons {f : Format} {w : Word} {ws : List Word} (hpos : 0 < f.count)
    (hlen : f.count ≤ ws.length + 1) : f.decode (w :: ws) = f.read w >>= fun g => g.decode ws := by
  cases f with
  | z => cases hpos
  | s =>
    rw [decode, decodeS, read]
    cases sourceOperand w <;> rfl
  | r =>
    rw [decode, decodeR, read]
    cases resultOperand w <;> rfl
  | rs =>
    match ws, hlen with
    | b :: ws, _ =>
    rw [decode, decodeRS, read]
    cases resultOperand w <;> rfl
  | ss =>
    match ws, hlen with
    | b :: ws, _ =>
    rw [decode, decodeSS, read]
    cases sourceOperand w <;> rfl
  | rss =>
    match ws, hlen with
    | b :: c :: ws, _ =>
    rw [decode, decodeRSS, read]
    cases resultOperand w <;> rfl

/-- Everything reading an operand word can do (R53, R54, R60 step 4). -/
theorem read_cases {f : Format} (hpos : 0 < f.count) (w : Word) :
    (∃ g, f.read w = .ok g ∧ g.count + 1 = f.count ∧ g.hasResult = false ∧ w.toNat ≤ 32775 ∧
      (f.hasResult = true → 32768 ≤ w.toNat)) ∨
    (32776 ≤ w.toNat ∧ f.read w = .error (.invalidOperand w)) ∨
    (f.hasResult = true ∧ w.toNat ≤ 32767 ∧ f.read w = .error (.nonRegisterResult w)) := by
  cases f with
  | z => cases hpos
  | s mk | ss mk =>
    rcases sourceOperand_cases w with ⟨o, e, -, -, h⟩ | ⟨h, e⟩
    · exact .inl ⟨_, by rw [read, e]; rfl, rfl, rfl, h, nofun⟩
    · exact .inr (.inl ⟨h, by rw [read, e]; rfl⟩)
  | r mk | rs mk | rss mk =>
    rcases resultOperand_cases w with ⟨n, e, h, -⟩ | ⟨h, e⟩ | ⟨h, e⟩
    · have hn := n.isLt
      exact .inl ⟨_, by rw [read, e]; rfl, rfl, rfl, by omega, fun _ => by omega⟩
    · exact .inr (.inr ⟨rfl, h, by rw [read, e]; rfl⟩)
    · exact .inr (.inl ⟨h, by rw [read, e]; rfl⟩)

/-- A literal in a result position is refused, whatever follows it (R54, R107). -/
theorem decode_literal_result {f : Format} {ws : List Word} {w : Word} (hf : f.hasResult = true)
    (hlen : f.count ≤ ws.length) (hget : ws[0]? = some w) (hw : w.toNat ≤ 32767) :
    f.decode ws = .error (.nonRegisterResult w) := by
  have hpos := count_pos hf
  obtain ⟨v, vs, rfl⟩ := List.exists_cons_of_length_pos (Nat.lt_of_lt_of_le hpos hlen)
  obtain rfl : v = w := Option.some.inj hget
  rw [decode_cons hpos hlen]
  rcases read_cases hpos v with ⟨-, -, -, -, -, h⟩ | ⟨h, -⟩ | ⟨-, -, e⟩
  · exact absurd (h hf) (by omega)
  · omega
  · rw [e]
    rfl

/-- An out-of-domain operand word is refused when the words before it are acceptable, whatever follows
it (R60 step 4, R108, R115): reading the word before it leaves a format with one operand fewer. -/
theorem decode_outOfDomain {f : Format} {ws : List Word} {k : Nat} {w : Word} (hk : k < f.count)
    (hlen : f.count ≤ ws.length) (hget : ws[k]? = some w) (hw : 32776 ≤ w.toNat)
    (hpre : ∀ j v, j < k → ws[j]? = some v →
      v.toNat ≤ 32775 ∧ (j = 0 → f.hasResult = true → 32768 ≤ v.toNat)) :
    f.decode ws = .error (.invalidOperand w) := by
  induction k generalizing f ws with
  | zero =>
    obtain ⟨v, vs, rfl⟩ := List.exists_cons_of_length_pos (Nat.lt_of_lt_of_le hk hlen)
    obtain rfl : v = w := Option.some.inj hget
    rw [decode_cons hk hlen]
    rcases read_cases hk v with ⟨-, -, -, -, h, -⟩ | ⟨-, e⟩ | ⟨-, h, -⟩
    · omega
    · rw [e]
      rfl
    · omega
  | succ k ih =>
    have hpos : 0 < f.count := Nat.zero_lt_of_lt hk
    obtain ⟨v, vs, rfl⟩ := List.exists_cons_of_length_pos (Nat.lt_of_lt_of_le hpos hlen)
    obtain ⟨hv, hres⟩ := hpre 0 v k.succ_pos rfl
    rw [decode_cons hpos hlen]
    rcases read_cases hpos v with ⟨g, e, hcount, hg, -, -⟩ | ⟨h, -⟩ | ⟨hf, h, -⟩
    · rw [List.length_cons] at hlen
      rw [e]
      refine ih (by omega) (by omega) hget fun j u hj hu => ⟨?_, fun _ h => ?_⟩
      · exact (hpre (j + 1) u (Nat.succ_lt_succ hj) hu).1
      · rw [hg] at h
        cases h
    · omega
    · exact absurd (hres rfl hf) (by omega)

/-- What starts with an acceptable result operand, or has no result position, never gives
`NonRegisterResult`: no other position raises it (R54). -/
theorem decode_ne_nonRegisterResult {f : Format} {ws : List Word}
    (h : f.hasResult = true → ∀ v ∈ ws.head?, 32768 ≤ v.toNat) (w : Word) :
    f.decode ws ≠ .error (.nonRegisterResult w) := by
  induction ws generalizing f with
  | nil => cases f <;> exact nofun
  | cons v vs ih =>
    rcases Nat.eq_zero_or_pos f.count with h0 | hpos
    · obtain ⟨i, rfl⟩ := eq_z_of_count h0
      exact nofun
    rcases Nat.lt_or_ge (v :: vs).length f.count with hlen | hlen
    · rw [decode_of_length_lt hlen]
      exact nofun
    rw [decode_cons hpos hlen]
    rcases read_cases hpos v with ⟨g, e, -, hg, -, -⟩ | ⟨-, e⟩ | ⟨hf, hv, -⟩
    · rw [e]
      exact ih (by rw [hg]; exact nofun)
    · rw [e]
      exact nofun
    · exact absurd (h hf v rfl) (by omega)

end Format

/-! ### The opcode map (R56): the format of every known opcode -/

/-- The format each opcode from 0 to 21 selects (R56). -/
def opcodeFormats : List Format :=
  [.z .hlt, .rs .set, .s .push, .r .pop, .rss .eq, .rss .gt, .s .jmp, .ss .jt, .ss .jf, .rss .add,
    .rss .mult, .rss .mod, .rss .and, .rss .or, .rs .not, .rs .rmem, .ss .wmem, .s .call, .z .ret,
    .s .out, .r .inp, .z .nop]

theorem lt_of_opcodeFormat {k : Nat} {f : Format} (h : opcodeFormats[k]? = some f) : k < 22 :=
  (List.getElem?_eq_some_iff.mp h).1

/-- A known opcode decodes by its format. -/
theorem decodeOp_of_opcodeFormat {op : Word} {f : Format} (h : opcodeFormats[op.toNat]? = some f)
    (ws : List Word) : decodeOp op ws = f.decode ws := by
  have hlt := lt_of_opcodeFormat h
  unfold decodeOp
  generalize op.toNat = k at h hlt
  interval_cases k <;> cases h <;> rfl

/-- The result opcodes of R54 are those whose format has a result position. -/
theorem mem_resultOpcodes_iff {k : Nat} {f : Format} (h : opcodeFormats[k]? = some f) :
    k ∈ Machine.resultOpcodes ↔ f.hasResult = true := by
  have hlt := lt_of_opcodeFormat h
  interval_cases k <;> cases h <;> decide

/-- The operand counts of R56 are those of the formats. -/
theorem operandCounts_eq : Machine.operandCounts = opcodeFormats.map Format.count := rfl

theorem opcodeFormat_of_count {k n : Nat} (h : Machine.operandCounts[k]? = some n) :
    ∃ f, opcodeFormats[k]? = some f ∧ f.count = n := by
  rwa [operandCounts_eq, List.getElem?_map, Option.map_eq_some_iff] at h

theorem opcodeFormat_of_mem {k : Nat} (h : k ∈ Machine.resultOpcodes) :
    ∃ f, opcodeFormats[k]? = some f ∧ f.hasResult = true := by
  have hlt : ∀ k ∈ Machine.resultOpcodes, k < opcodeFormats.length := by decide
  have hf := List.getElem?_eq_getElem (hlt k h)
  exact ⟨_, hf, (mem_resultOpcodes_iff hf).mp h⟩

/-! ### Decoding an encoding (R52, R58, R60) -/

theorem decodeS_word {mk : Operand → Instr} {a : Operand} (ha : a.wf = true) (rest : List Word) :
    decodeS mk (a.word :: rest) = .ok (mk a, rest) := by
  rw [decodeS, sourceOperand_word ha]
  rfl

theorem decodeR_word (mk : Reg → Instr) (a : Reg) (rest : List Word) :
    decodeR mk (Reg.word a :: rest) = .ok (mk a, rest) := by
  rw [decodeR, resultOperand_word]
  rfl

theorem decodeRS_word {mk : Reg → Operand → Instr} (a : Reg) {b : Operand} (hb : b.wf = true)
    (rest : List Word) :
    decodeRS mk (Reg.word a :: b.word :: rest) = .ok (mk a b, rest) := by
  rw [decodeRS_cons (resultOperand_word a), decodeS_word hb]

theorem decodeSS_word {mk : Operand → Operand → Instr} {a b : Operand} (ha : a.wf = true)
    (hb : b.wf = true) (rest : List Word) :
    decodeSS mk (a.word :: b.word :: rest) = .ok (mk a b, rest) := by
  rw [decodeSS_cons (sourceOperand_word ha), decodeS_word hb]

theorem decodeRSS_word {mk : Reg → Operand → Operand → Instr} (a : Reg) {b c : Operand}
    (hb : b.wf = true) (hc : c.wf = true) (rest : List Word) :
    decodeRSS mk (Reg.word a :: b.word :: c.word :: rest) = .ok (mk a b c, rest) := by
  rw [decodeRSS_cons (resultOperand_word a), decodeSS_word hb hc]

/-- The encoding of a well-formed instruction decodes to it, whatever follows (R58, R60). -/
theorem decodeWords_encode {i : Instr} (h : i.wf = true) (rest : List Word) :
    decodeWords (encode i ++ rest) = .ok (i, rest) := by
  simp only [Instr.wf, List.all_eq_true] at h
  cases i with
  | hlt | ret | nop => rfl
  | push a | jmp a | call a | out a => exact decodeS_word (h a (by simp [Instr.sources])) rest
  | pop a | inp a => exact decodeR_word _ a rest
  | set a b | not a b | rmem a b => exact decodeRS_word a (h b (by simp [Instr.sources])) rest
  | jt a b | jf a b | wmem a b =>
    exact decodeSS_word (h a (by simp [Instr.sources])) (h b (by simp [Instr.sources])) rest
  | eq a b c | gt a b c | add a b c | mult a b c | mod a b c | and a b c | or a b c =>
    exact decodeRSS_word a (h b (by simp [Instr.sources])) (h c (by simp [Instr.sources])) rest

/-- One round of a stream reads the encoding it starts with (R59). -/
theorem decodeRounds_encode_append {i : Instr} (h : i.wf = true) (n : Nat) (ws : List Word) :
    decodeRounds (n + 1) (encode i ++ ws) = (decodeRounds n ws).map (i :: ·) := by
  have hlen : 0 < (encode i).length := by
    obtain ⟨henc, hpos, -⟩ := encodeLength i
    omega
  obtain ⟨op, vs, henc⟩ := List.exists_cons_of_length_pos hlen
  have hd : decodeOp op (vs ++ ws) = .ok (i, ws) := by
    have hd := decodeWords_encode h ws
    rwa [henc] at hd
  rw [henc, List.cons_append, decodeRounds, hd]
  change (decodeRounds n ws >>= fun is => .ok (i :: is)) = _
  cases decodeRounds n ws <;> rfl

/-- Enough rounds read a whole program back (R61). -/
theorem decodeRounds_flatMap_encode {p : List Instr} (h : ∀ i ∈ p, i.wf = true) {n : Nat}
    (hn : (p.flatMap encode).length ≤ n) : decodeRounds n (p.flatMap encode) = .ok p := by
  induction p generalizing n with
  | nil => rw [List.flatMap_nil, decodeRounds]
  | cons i p ih =>
    obtain ⟨henc, hpos, -⟩ := encodeLength i
    rw [List.flatMap_cons, List.length_append] at hn
    obtain ⟨m, rfl⟩ := Nat.exists_eq_add_of_lt (show 0 < n by omega)
    rw [List.flatMap_cons, Nat.zero_add, decodeRounds_encode_append (h i List.mem_cons_self),
      ih (fun j hj => h j (List.mem_cons_of_mem i hj)) (by omega)]
    rfl

/-- The encoding of a result opcode has the destination register as its word 1 (R54). -/
theorem dest_of_encode {i : Instr} {op a : Word} {ws left : List Word}
    (h : op :: a :: ws = encode i ++ left) (hop : op.toNat ∈ Machine.resultOpcodes) :
    ∃ n, i.dest = some n ∧ a = Reg.word n := by
  cases i with
  | hlt | push | jmp | jt | jf | wmem | call | ret | out | nop =>
    obtain ⟨rfl, -⟩ := List.cons.inj h
    exact absurd hop (by decide)
  | set n | pop n | eq n | gt n | add n | mult n | mod n | and n | or n | not n | rmem n | inp n =>
    exact ⟨n, rfl, (List.cons.inj (List.cons.inj h).2).1⟩

/-! ### The classes of an operand word (R53) -/

theorem resultOperand_of_outOfDomain {w : Word} (h : 32776 ≤ w.toNat) :
    resultOperand w = .error (.invalidOperand w) := by
  rw [resultOperand, classify_outOfDomain h]

theorem sourceOperand_eq_lit_iff (w : Word) :
    (∃ o, sourceOperand w = .ok (.lit o)) ↔ w.toNat ≤ 32767 := by
  rcases classify_cases w with ⟨h, hc⟩ | ⟨n, h, hc⟩ | ⟨h, hc⟩
  all_goals
    simp only [sourceOperand, hc, Except.ok.injEq, Operand.lit.injEq, exists_eq', reduceCtorEq,
      exists_false, true_iff, false_iff]
    omega

theorem sourceOperand_eq_reg_iff (w : Word) (n : Reg) :
    sourceOperand w = .ok (.reg n) ↔ w.toNat = 32768 + n.val := by
  rcases classify_cases w with ⟨h, hc⟩ | ⟨m, h, hc⟩ | ⟨h, hc⟩
  all_goals
    simp only [sourceOperand, hc, Except.ok.injEq, Operand.reg.injEq, Fin.ext_iff, reduceCtorEq,
      false_iff]
    omega

theorem sourceOperand_eq_invalid_iff (w : Word) :
    sourceOperand w = .error (.invalidOperand w) ↔ 32776 ≤ w.toNat := by
  rcases classify_cases w with ⟨h, hc⟩ | ⟨n, h, hc⟩ | ⟨h, hc⟩
  all_goals
    simp only [sourceOperand, hc, reduceCtorEq, true_iff, false_iff]
    omega

theorem bit15_iff (w : Word) : w.getLsbD 15 = true ↔ 32768 ≤ w.toNat := by
  have h := w.msb_eq_decide
  rw [BitVec.msb_eq_getLsbD_last] at h
  rw [h, decide_eq_true_iff]

/-- Bits 14 to 3 of a word as a number (R53's bit test). -/
theorem bits3to14_eq_zero_iff (w : Word) :
    (∀ k, 3 ≤ k → k ≤ 14 → w.getLsbD k = false) ↔ w.toNat / 8 % 4096 = 0 := by
  have hval : (w.extractLsb' 3 12).toNat = w.toNat / 8 % 4096 := by
    rw [BitVec.extractLsb'_toNat, Nat.shiftRight_eq_div_pow]
  rw [← hval]
  constructor
  · intro h
    refine congrArg BitVec.toNat (BitVec.eq_of_getLsbD_eq (y := 0#12) fun i hi => ?_)
    rw [BitVec.getLsbD_extractLsb', h (3 + i) (by omega) (by omega), Bool.and_false,
      BitVec.getLsbD_zero]
  · intro h k h3 h14
    have h0 : w.extractLsb' 3 12 = 0#12 := BitVec.eq_of_toNat_eq h
    have hk := BitVec.getLsbD_extractLsb' 3 12 w (k - 3)
    rw [h0, BitVec.getLsbD_zero, Nat.add_sub_cancel' h3] at hk
    simpa [show k - 3 < 12 by omega] using hk.symm

theorem bits3to14_ne_zero_iff (w : Word) :
    (∃ k, 3 ≤ k ∧ k ≤ 14 ∧ w.getLsbD k = true) ↔ w.toNat / 8 % 4096 ≠ 0 := by
  rw [ne_eq, ← bits3to14_eq_zero_iff]
  simp

/-! ### The words in memory (R60, R66) -/

namespace Machine

/-- The window after an opcode word at `p` holds all `n` operand words that lie in memory (R66). -/
theorem Memory.le_window_length {m : Memory} {p n : Nat} (hn : n ≤ 3) (h : p + n < 32768) :
    n ≤ (Memory.window m 3 (p + 1)).length := by
  rw [Memory.window_length]
  omega

/-- A window starts with the words that memory holds from its address on (R66). -/
theorem Memory.window_of_words {m : Memory} {ws : List Word} (n : Nat) {p : Nat}
    (h : ∀ (k : Nat) (w : Word), ws[k]? = some w → Memory.read m (p + k) = some w) :
    Memory.window m (ws.length + n) p = ws ++ Memory.window m n (p + ws.length) := by
  induction ws generalizing p with
  | nil => simp
  | cons w ws ih =>
    have htail (k : Nat) (v : Word) (hv : ws[k]? = some v) :
        Memory.read m (p + 1 + k) = some v := by
      rw [Nat.add_assoc, Nat.add_comm 1 k]
      exact h (k + 1) v hv
    have hw : Memory.read m p = some w := h 0 w rfl
    rw [List.length_cons, Nat.add_right_comm, Memory.window_of_read hw, ih htail,
      List.cons_append, Nat.add_assoc, Nat.add_comm 1]

/-- A running machine takes the fault that its operand words raise (R60, R65, R113). -/
theorem step_of_decode_error {s : State} (hr : s.run = .running) {op : Word} {e : DecodeError}
    (hop : s.memRead s.pc = some op)
    (h : decodeOp op (Memory.window s.mem 3 (s.pc.toNat + 1)) = .error e) :
    step s = .next { s with run := .faulted (decodeFault s.pc e).1 (decodeFault s.pc e).2 } := by
  refine step_of_decodeFault hr ?_
  rw [Memory.decodeAt, Memory.window_of_read hop, decodeWords, h]

end Machine

end Sys2Proof
end

section
/-! SUPPORT. The obligations of the encoding family, each from the laws of the formats, of the decoder
on encodings, of the operand word classes and of the step. -/

namespace Sys2Proof.Machine

/-! ### Decode and encode -/

/-- Settles O1, by the format of each instruction's encoding. -/
theorem decodeEncodeRoundTrip : Obligations.DecodeEncodeRoundTrip :=
  fun _ rest h => decodeWords_encode h rest

/-- Settles O2: the opcode word selects the format, and each operand word is that of the operand
read from it. -/
theorem decodedWordsAreTheEncoding : Obligations.DecodedWordsAreTheEncoding :=
  fun _ _ _ h => decodeWords_ok h

/-- Settles O3, by induction on the program: a round for each instruction, and rounds enough. -/
theorem decodeStreamOfProgram : Obligations.DecodeStreamOfProgram :=
  fun _ h => decodeRounds_flatMap_encode h le_rfl

/-- Settles O6: each sequence starts with the encoding of its instruction. -/
theorem knownWordsDecode : Obligations.KnownWordsDecode :=
  ⟨decodeWords_encode (i := .add 0 (.lit 5) (.lit 6)) rfl _,
    decodeWords_encode (i := .out (.lit 65)) rfl _,
    decodeWords_encode (i := .hlt) rfl _,
    decodeWords_encode (i := .inp 0) rfl _,
    decodeWords_encode (i := .set 1 (.lit 1234)) rfl _,
    decodeWords_encode (i := .gt 2 (.reg 3) (.reg 7)) rfl _,
    decodeWords_encode (i := .jt (.reg 1) (.lit 6)) rfl _,
    decodeWords_encode (i := .wmem (.lit 100) (.reg 0)) rfl _⟩

/-- Settles O7: the opcode word of each encoding, looked up in R56's list. -/
theorem lengthFollowsOperandCount : Obligations.LengthFollowsOperandCount := by
  intro i
  cases i <;> exact ⟨_, _, rfl, rfl, rfl⟩

/-! ### Operand words -/

/-- Settles O4: each class and its bit test are the same range of values. -/
theorem operandWordClasses : Obligations.OperandWordClasses := by
  intro w
  have hlt := w.isLt
  have h15 : w.getLsbD 15 = false ↔ w.toNat ≤ 32767 := by
    rw [← Bool.not_eq_true, bit15_iff]
    omega
  refine ⟨sourceOperand_of_le, fun n => (sourceOperand_eq_reg_iff w n).mpr,
    fun h => ⟨(sourceOperand_eq_invalid_iff w).mpr h, resultOperand_of_outOfDomain h⟩,
    (sourceOperand_eq_lit_iff w).trans h15.symm, ?_, ?_, fun n h => ?_⟩
  · simp only [sourceOperand_eq_reg_iff]
    rw [bit15_iff, bits3to14_eq_zero_iff]
    refine ⟨fun ⟨n, hn⟩ => by omega, fun h => ⟨⟨w.toNat - 32768, by omega⟩, ?_⟩⟩
    dsimp only
    omega
  · rw [sourceOperand_eq_invalid_iff, bit15_iff, bits3to14_ne_zero_iff]
    omega
  · have hn := n.isLt
    rw [sourceOperand_eq_reg_iff] at h
    rw [BitVec.extractLsb'_toNat, Nat.shiftRight_zero]
    omega

/-- Settles O5: a result opcode's format reads word 1 as a register first, and no other read raises
`NonRegisterResult`. -/
theorem resultOperandIsARegister : Obligations.ResultOperandIsARegister := by
  refine ⟨fun op a b c rest hop => ?_, fun op w ws hop => ?_⟩
  · obtain ⟨f, hf, hres⟩ := opcodeFormat_of_mem hop
    have hlen : f.count ≤ (a :: b :: c :: rest).length :=
      f.count_le.trans (Nat.le_add_left 3 rest.length)
    refine ⟨fun ha => ?_, fun ha => ?_, fun i left h => ?_, fun w ha => ?_⟩
    · rw [decodeWords, decodeOp_of_opcodeFormat hf]
      exact Format.decode_literal_result hres hlen rfl ha
    · rw [decodeWords, decodeOp_of_opcodeFormat hf]
      exact Format.decode_outOfDomain (f.count_pos hres) hlen rfl ha nofun
    · obtain ⟨n, hdest, rfl⟩ := dest_of_encode (decodeWords_ok h).2 hop
      exact ⟨n, hdest, n.word_toNat⟩
    · rw [decodeWords, decodeOp_of_opcodeFormat hf]
      refine Format.decode_ne_nonRegisterResult (fun _ v hv => ?_) w
      obtain rfl := Option.some.inj hv
      exact ha
  · rw [decodeWords]
    rcases Nat.lt_or_ge op.toNat 22 with hlt | hge
    · have hf := List.getElem?_eq_getElem (l := opcodeFormats) hlt
      rw [decodeOp_of_opcodeFormat hf]
      exact Format.decode_ne_nonRegisterResult
        (fun hres => absurd ((mem_resultOpcodes_iff hf).mpr hres) hop) w
    · rw [decodeOp_unknown hge]
      exact nofun

/-! ### The step -/

/-- Settles O9: the window at `pc` starts with the encoding, and decoding takes no more than that. -/
theorem storedEncodingExecutes : Obligations.StoredEncodingExecutes := by
  intro s i hr hwf h
  obtain ⟨henc, -, hle⟩ := encodeLength i
  obtain ⟨n, hn⟩ := Nat.exists_eq_add_of_le (henc.trans_le hle)
  refine step_of_decodeWords hr (rest := Memory.window s.mem n (s.pc.toNat + (encode i).length)) ?_
  rw [hn, Memory.window_of_words n h, decodeWords_encode hwf]

/-- Settles O13: the format of the opcode refuses word `k` of the window after `pc`. -/
theorem operandChecksInOrder : Obligations.OperandChecksInOrder := by
  intro s op w n k hr hop hcount hmem hk1 hkn hpre hw
  obtain ⟨f, hf, rfl⟩ := opcodeFormat_of_count hcount
  have hle := f.count_le
  have hlen := Memory.le_window_length (m := s.mem) hle hmem
  have hread (j : Nat) (hj : j < 3) : (Memory.window s.mem 3 (s.pc.toNat + 1))[j]? =
      Memory.read s.mem (s.pc.toNat + (j + 1)) := by
    rw [Memory.window_getElem? s.mem _ hj, Nat.add_right_comm, Nat.add_assoc]
  obtain ⟨k, rfl⟩ := Nat.exists_eq_add_of_le' hk1
  have hget := (hread k (by omega)).trans hw
  refine ⟨fun hbad => step_of_decode_error hr hop (e := .invalidOperand w) ?_,
    fun hlit h1 hres => step_of_decode_error hr hop (e := .nonRegisterResult w) ?_⟩
  · rw [decodeOp_of_opcodeFormat hf]
    refine Format.decode_outOfDomain (k := k) (by omega) hlen hget hbad fun j v hj hv => ?_
    rw [hread j (by omega)] at hv
    obtain ⟨hdom, hrole⟩ := hpre (j + 1) v (by omega) (by omega) hv
    exact ⟨hdom, fun h0 hres => hrole (by omega) ((mem_resultOpcodes_iff hf).mpr hres)⟩
  · obtain rfl : k = 0 := by omega
    rw [decodeOp_of_opcodeFormat hf]
    exact Format.decode_literal_result ((mem_resultOpcodes_iff hf).mp hres) hlen hget hlit

end Sys2Proof.Machine
end

section
/-! SUPPORT. Laws the execution-cycle family rests on: `exec` always answers a next state, an effect
records no fault, a transfer to 32768 or more, and supplied input under an effect. -/

namespace Sys2Proof.Machine

/-! ### The next state (R65, R113) -/

/-- Execution completes, faults or waits, and each is a next state (R113; log 17). -/
theorem exec_answers_next (i : Instr) (s : State) : ∃ t, exec i s = .next t := by
  rcases exec_cases i s with ⟨m, sig, -, h⟩ | ⟨kind, info, -, h⟩ | ⟨-, -, h⟩
  all_goals exact ⟨_, h⟩

/-- An instruction that completes on a running machine records no fault: its signal leaves the run
status or halts (R68, R73). -/
theorem Effect.run_ne_faulted {s m : State} {i : Instr} {sig : Signal} (h : Effect s i m sig)
    (hr : s.run = .running) (kind : Fault) (info : Word) :
    (m.apply sig).run ≠ .faulted kind info := by
  rw [State.apply_run, h.run_eq, hr]
  split <;> exact nofun

/-! ### A transfer to an address outside memory (R83) -/

theorem isNonZero_of_ne {v : Word} (h : v.toNat ≠ 0) : isNonZero v = true :=
  bne_iff_ne.mpr fun hv => h (congrArg BitVec.toNat hv)

theorem isNonZero_of_zero {v : Word} (h : v.toNat = 0) : isNonZero v = false :=
  bne_eq_false_iff_eq.mpr (BitVec.eq_of_toNat_eq h)

/-- An instruction whose signal is a transfer to 32768 or more completes, and its target faults when
it is fetched from (R66, R83). -/
theorem Effect.transfersThenFaults {s m : State} {i : Instr} {target : Word}
    (h : Effect s i m (transferTo target)) (hr : s.run = .running) (hge : 32768 ≤ target.toNat) :
    TransfersThenFaults i s target :=
  have hrun : (m.apply (transferTo target)).run = .running := h.run_eq.trans hr
  ⟨_, h.exec_eq, rfl, hrun, step_of_pc_ge hrun hge⟩

/-! ### Supplied input (R102, R128) -/

section Supply

variable {s : State} {i : Instr} (bs : List Byte)

/-- Supplied bytes stay behind those already there, so an instruction that completes has the same
effect with them. -/
theorem Effect.supplyInput {m : State} {sig : Signal} (h : Effect s i m sig) :
    Effect (s.supplyInput bs) i (m.supplyInput bs) sig := by
  cases h with
  | pop a hs => exact .pop a hs
  | ret hs => exact .ret hs
  | retEmpty hs => exact .retEmpty hs
  | mod a b c hc => exact .mod a b c hc
  | rmem a b ha => exact .rmem a b ha
  | wmem a b ha => exact .wmem a b ha
  | inp a hin => exact Effect.inp (s := s.supplyInput bs) a (congrArg (· ++ bs) hin)
  | _ => constructor

/-- No execution fault depends on the input. -/
theorem Raises.supplyInput {kind : Fault} {info : Word} (h : Raises s i kind info) :
    Raises (s.supplyInput bs) i kind info := by
  cases h with
  | pop a hs => exact .pop a hs
  | mod a b c hc => exact .mod a b c hc
  | rmem a b ha => exact .rmem a b ha
  | wmem a b ha => exact .wmem a b ha

/-- Execution and the supply commute, except where `in` waits (R71). -/
theorem exec_supplyInput {t : State} (hw : ∀ a, i = .inp a → s.input ≠ [])
    (h : exec i s = .next t) : exec i (s.supplyInput bs) = .next (t.supplyInput bs) := by
  rcases exec_next h with ⟨m, sig, he, rfl⟩ | ⟨kind, info, hf, rfl⟩ | ⟨⟨a, ha⟩, hin, -⟩
  · exact (he.supplyInput bs).exec_eq
  · exact (hf.supplyInput bs).exec_eq
  · exact absurd hin (hw a ha)

end Supply

end Sys2Proof.Machine
end

section
/-! SUPPORT. The obligations of the execution-cycle family, each from the laws of `exec`, of `step` and
of what an effect does. -/

namespace Sys2Proof.Machine

/-! ### The whole machine -/

/-- Settles O40: a stopped machine and a decode fault answer at once, and so does the execution of the
decoded instruction. -/
theorem stepAlwaysAnswersNext : Obligations.StepAlwaysAnswersNext := by
  intro s
  rcases step_cases s with ⟨-, h⟩ | ⟨kind, info, -, -, h⟩ | ⟨i, -, -, h⟩
  · exact ⟨_, h⟩
  · exact ⟨_, h⟩
  · rw [h]
    exact exec_answers_next i s

/-- Settles O41: an instruction that completes records no fault, so the step only recorded one. -/
theorem faultsArePrecise : Obligations.FaultsArePrecise := by
  intro s t kind info hr h ht
  rcases step_next h with rfl | ⟨kind', info', rfl⟩ | ⟨i, m, sig, -, he, rfl⟩
  · cases hr.symm.trans ht
  · exact ⟨rfl, fun _ => rfl, rfl, rfl, rfl, rfl⟩
  · exact absurd ht (he.run_ne_faulted hr kind info)

/-- Settles O51: decoding does not look at the input, and execution looks at its first byte only. -/
theorem supplyingInputCommutes : Obligations.SupplyingInputCommutes := by
  intro s t bs hw h
  rcases step_cases s with ⟨hr, h'⟩ | ⟨kind, info, hr, hd, h'⟩ | ⟨i, hr, hd, h'⟩
  · obtain rfl := Host.Outcome.next.inj (h'.symm.trans h)
    exact step_of_stopped hr
  · obtain rfl := Host.Outcome.next.inj (h'.symm.trans h)
    exact step_of_decodeFault (s := s.supplyInput bs) hr hd
  · have hin (a : Reg) (ha : i = .inp a) : s.input ≠ [] := fun hnil =>
      hw ⟨hr, hnil, a, by rw [hd, ha]⟩
    calc step (s.supplyInput bs)
        = exec i (s.supplyInput bs) := step_of_decodeAt (s := s.supplyInput bs) hr hd
      _ = .next (t.supplyInput bs) := exec_supplyInput bs hin (h'.symm.trans h)

/-- Settles O54: each of the five has the transfer to the target as its signal. -/
theorem badTargetFaultsAtNextFetch : Obligations.BadTargetFaultsAtNextFetch := by
  intro s target hr hge
  refine ⟨?_, ?_, ?_, ?_, ?_⟩
  · rintro a rfl
    exact (Effect.jmp a).transfersThenFaults hr hge
  · rintro a b ha rfl
    have h := Effect.jt (s := s) a b
    rw [isNonZero_of_ne ha] at h
    exact h.transfersThenFaults hr hge
  · rintro a b ha rfl
    have h := Effect.jf (s := s) a b
    rw [isNonZero_of_zero ha] at h
    exact h.transfersThenFaults hr hge
  · rintro a rfl
    exact (Effect.call a).transfersThenFaults hr hge
  · intro st hs
    exact (Effect.ret hs).transfersThenFaults hr hge

/-! ### Operands and input -/

/-- Settles O18: a literal word decodes to itself, and a word that decodes to a register is that
register's number and 32768. -/
theorem resolveOfRawWord : Obligations.ResolveOfRawWord := by
  intro s w o h
  refine ⟨fun hle => ?_, fun hge => ?_⟩
  · obtain rfl := Except.ok.inj ((sourceOperand_of_le hle).symm.trans h)
    rfl
  · cases o with
    | lit v =>
      have hle := (sourceOperand_eq_lit_iff w).mp ⟨v, h⟩
      omega
    | reg n =>
      have hn := n.isLt
      have hw := (sourceOperand_eq_reg_iff w n).mp h
      refine ⟨by omega, ?_⟩
      rw [State.resolve_reg, hw, Nat.add_sub_cancel_left]

/-- Settles O38: the effect of `in` on the first byte, and the wait where there is none. -/
theorem inReadsOneByteOrWaits : Obligations.InReadsOneByteOrWaits := by
  intro s a
  refine ⟨rfl, fun b rest hin => ?_, exec_inp_of_nil a⟩
  have hget := State.getReg_writeResult_same { s with input := rest } a (zextByte b) 2
  exact ⟨_, (Effect.inp a hin).exec_eq, (congrArg BitVec.toNat hget).trans (zextByte_toNat b),
    rfl, rfl, rfl, rfl,
    fun _ hr => State.getReg_writeResult_other { s with input := rest } hr (zextByte b) 2,
    fun _ => rfl, rfl⟩

end Sys2Proof.Machine
end

section
/-! SUPPORT. The obligations of the system family (41_system.md): `hlt` and `nop` do nothing but give
their signal, so each is its effect and what applying a signal leaves unchanged. -/

namespace Sys2Proof.Machine

/-- Applying a signal moves `pc` and the run status only (R68). -/
theorem State.apply_frame (s : State) (sig : Signal) :
    SameRegs s (s.apply sig) ∧ SameMem s (s.apply sig) ∧ (s.apply sig).stk = s.stk ∧
      SameStreams s (s.apply sig) :=
  ⟨fun r => State.getReg_congr (s.apply_x sig) r, State.memRead_congr (s.apply_mem sig),
    s.apply_stk sig, s.apply_input sig, s.apply_output sig⟩

/-- Settles O19: the signal of `hlt` is the default one with the halt flag set. -/
theorem hltHalts : Obligations.HltHalts := by
  intro s
  exact ⟨rfl, _, Effect.hlt.exec_eq, rfl, rfl, s.apply_frame _⟩

/-- Settles O20: the signal of `nop` is the default one, which leaves the run status. -/
theorem nopOnlyAdvances : Obligations.NopOnlyAdvances := by
  intro s
  exact ⟨rfl, _, Effect.nop.exec_eq, rfl, rfl, s.apply_frame _⟩

end Sys2Proof.Machine
end

section
/-! SUPPORT. The obligations of the move and stack family (42_move_stack.md): `set` and `pop` end with
their result written, `push` with its value appended, so each is its effect and the laws of those
updates. -/

namespace Sys2Proof.Machine

/-- Writing a result and advancing leaves everything else as it was (R54, R69). -/
theorem State.onlyResultWritten_writeResult (s : State) (a : Reg) (v : Word) (len : Nat) :
    OnlyResultWritten a len s (s.writeResult a v len) :=
  ⟨fun _ hr => s.getReg_writeResult_other hr v len,
    State.memRead_congr (s.writeResult_mem a v len), s.writeResult_stk a v len,
    ⟨s.writeResult_input a v len, s.writeResult_output a v len⟩, s.writeResult_run a v len,
    s.writeResult_pc a v len⟩

/-- Settles O21: the result written is the resolved operand. -/
theorem setCopiesTheValue : Obligations.SetCopiesTheValue := by
  intro s a b
  exact ⟨rfl, _, (Effect.set a b).exec_eq, s.getReg_writeResult_same a (s.resolve b) 3,
    s.onlyResultWritten_writeResult a (s.resolve b) 3⟩

/-- Settles O22: the stack port appends the resolved operand, and the signal is the default one. -/
theorem pushAppends : Obligations.PushAppends := by
  intro s a
  exact ⟨rfl, _, (Effect.push a).exec_eq, s.push_stk (s.resolve a), rfl, rfl,
    fun r => State.getReg_congr (s.push_x (s.resolve a)) r.val,
    State.memRead_congr (s.push_mem (s.resolve a)), rfl, rfl⟩

/-- Settles O23: with a top entry, that entry is the result written to the state without it; on the
empty stack, the fault. -/
theorem popTakesTheTop : Obligations.PopTakesTheTop := by
  intro s a
  refine ⟨rfl, fun st v hs => ?_, fun hs => (Raises.pop a hs).exec_eq⟩
  obtain ⟨hregs, hmem, hstk, hstreams, hrun, hpc⟩ :=
    State.onlyResultWritten_writeResult { s with stk := st } a v 2
  exact ⟨_, (Effect.pop a hs).exec_eq, State.getReg_writeResult_same { s with stk := st } a v 2,
    hstk, hpc, hrun, hregs, hmem, hstreams⟩

end Sys2Proof.Machine
end

section
/-! SUPPORT. The obligations of the comparison family (43_compare.md): `eq` and `gt` end with their
truth word written, so each is its effect and the two values of that word. -/

namespace Sys2Proof.Machine

@[simp] theorem truthWord_true : truthWord true = 1 := rfl
@[simp] theorem truthWord_false : truthWord false = 0 := rfl

/-- Words are equal when their numbers are, so all 16 bits are compared (R81). -/
theorem eqWord_of_toNat_eq {b c : Word} (h : b.toNat = c.toNat) : eqWord b c = 1 := by
  obtain rfl := BitVec.eq_of_toNat_eq h
  simp only [eqWord, BEq.rfl, truthWord_true]

theorem eqWord_of_toNat_ne {b c : Word} (h : b.toNat ≠ c.toNat) : eqWord b c = 0 := by
  have hne : b ≠ c := fun he => h (congrArg BitVec.toNat he)
  simp only [eqWord, beq_false_of_ne hne, truthWord_false]

theorem gtWord_of_lt {b c : Word} (h : c.toNat < b.toNat) : gtWord b c = 1 := by
  simp only [gtWord, decide_eq_true h, truthWord_true]

theorem gtWord_of_le {b c : Word} (h : b.toNat ≤ c.toNat) : gtWord b c = 0 := by
  simp only [gtWord, decide_eq_false (Nat.not_lt.mpr h), truthWord_false]

/-- Settles O24: the result written is the truth word of equality. -/
theorem eqWritesOneOrZero : Obligations.EqWritesOneOrZero := by
  intro s a b c
  have hget := s.getReg_writeResult_same a (eqWord (s.resolve b) (s.resolve c)) 4
  exact ⟨rfl, _, (Effect.eq a b c).exec_eq, s.onlyResultWritten_writeResult a _ 4,
    fun h => hget.trans (eqWord_of_toNat_eq h), fun h => hget.trans (eqWord_of_toNat_ne h)⟩

/-- Settles O25: the result written is the truth word of the unsigned strict order. -/
theorem gtWritesOneOrZero : Obligations.GtWritesOneOrZero := by
  intro s a b c
  have hget := s.getReg_writeResult_same a (gtWord (s.resolve b) (s.resolve c)) 4
  exact ⟨rfl, _, (Effect.gt a b c).exec_eq, s.onlyResultWritten_writeResult a _ 4,
    fun h => hget.trans (gtWord_of_lt h), fun h => hget.trans (gtWord_of_le h)⟩

end Sys2Proof.Machine
end

section
/-! SUPPORT. The obligations of the control-transfer family (44_control_transfer.md): each instruction
is its effect and what applying its signal, to the target or to the default `pc`, leaves unchanged. -/

namespace Sys2Proof.Machine

/-- A signal without the halt flag moves `pc` only (R68). -/
theorem State.apply_frame_of_no_halt (s : State) {sig : Signal} (h : sig.halt = false) :
    (s.apply sig).run = s.run ∧ SameRegs s (s.apply sig) ∧ SameMem s (s.apply sig) ∧
      (s.apply sig).stk = s.stk ∧ SameStreams s (s.apply sig) :=
  ⟨by rw [State.apply_run, h, if_neg Bool.false_ne_true], s.apply_frame sig⟩

/-- Settles O26: the signal of `jmp` is the transfer to the resolved operand. -/
theorem jmpSetsPc : Obligations.JmpSetsPc := by
  intro s a
  exact ⟨rfl, _, (Effect.jmp a).exec_eq, rfl, s.apply_frame_of_no_halt rfl⟩

/-- Settles O27: whether the condition is zero chooses between the transfer and the default signal,
and neither halts. -/
theorem jtAndJfTestTheCondition : Obligations.JtAndJfTestTheCondition := by
  intro s a b
  refine ⟨rfl, rfl,
    ⟨_, (Effect.jt a b).exec_eq, fun hne => ?_, fun hz => ?_,
      s.apply_frame_of_no_halt (by split <;> rfl)⟩,
    ⟨_, (Effect.jf a b).exec_eq, fun hz => ?_, fun hne => ?_,
      s.apply_frame_of_no_halt (by split <;> rfl)⟩⟩
  · rw [isNonZero_of_ne hne]; rfl
  · rw [isNonZero_of_zero hz]; rfl
  · rw [isNonZero_of_zero hz]; rfl
  · rw [isNonZero_of_ne hne]; rfl

/-- Settles O28: the stack port appends the return address, and the signal is the transfer. -/
theorem callPushesReturnAddress : Obligations.CallPushesReturnAddress := by
  intro s a
  obtain ⟨hrun, hregs, hmem, hstk, hstreams⟩ :=
    (s.push (s.pc + 2)).apply_frame_of_no_halt (sig := transferTo (s.resolve a)) rfl
  exact ⟨rfl, _, (Effect.call a).exec_eq, hstk, rfl, hrun, hregs, hmem, hstreams⟩

/-- Settles O29: with a top entry, the transfer to it from the state without it; on the empty stack,
the default signal with the halt flag set. -/
theorem retPopsOrHalts : Obligations.RetPopsOrHalts := by
  intro s
  refine ⟨rfl, fun st v hs => ?_, fun hs => ?_⟩
  · obtain ⟨hrun, hregs, hmem, hstk, hstreams⟩ :=
      ({ s with stk := st } : State).apply_frame_of_no_halt (sig := transferTo v) rfl
    exact ⟨_, (Effect.ret hs).exec_eq, rfl, hstk, hrun, hregs, hmem, hstreams⟩
  · obtain ⟨hregs, hmem, hstk, hstreams⟩ := s.apply_frame { s.defaultSignal 1 with halt := true }
    exact ⟨_, (Effect.retEmpty hs).exec_eq, rfl, rfl, hstk.trans hs, hregs, hmem, hstreams⟩

/-- Settles O53: `call` leaves its return address on top of the stack as it was (O28), and `ret` takes
it off (O29). -/
theorem callThenRetResumes : Obligations.CallThenRetResumes := by
  intro s t u a h hu
  obtain ⟨-, t', h', hstk, -⟩ := callPushesReturnAddress s a
  obtain rfl := Host.Outcome.next.inj (h'.symm.trans h)
  obtain ⟨-, hpop, -⟩ := retPopsOrHalts u
  obtain ⟨v, hv, hpc, hst, hrun, -⟩ := hpop s.stk (s.pc + 2) (hu.trans hstk)
  exact ⟨v, hv, hpc, hst, hrun⟩

end Sys2Proof.Machine
end

section
/-! SUPPORT. The obligations of the arithmetic and logic family (45_arithmetic_logic.md): each
instruction ends with its ALU result written, so each is its effect and the value of that result. -/

namespace Sys2Proof.Machine

/-! ### The ALU (R90) -/

/-- Keeping the low 15 bits of a word is its remainder modulo 32768. -/
theorem and_maxLiteral_toNat (w : Word) : (w &&& 32767).toNat = w.toNat % 32768 :=
  Nat.and_two_pow_sub_one_eq_mod w.toNat 15

/-- The mask of `not` has bits 14 to 0 set and no other (R96). -/
theorem maxLiteral_getLsbD (k : Nat) : (32767 : Word).getLsbD k = decide (k < 15) :=
  Nat.testBit_two_pow_sub_one 15 k

theorem aluNot_eq (b : Word) : aluNot b = ~~~b &&& 32767 := rfl

/-- Bits 14 to 0 of the result of `not` are complements (R96). -/
theorem aluNot_getLsbD_of_lt (b : Word) {k : Nat} (h : k < 15) :
    (aluNot b).getLsbD k = !b.getLsbD k := by
  rw [aluNot_eq, BitVec.getLsbD_and, BitVec.getLsbD_not, maxLiteral_getLsbD, decide_eq_true h,
    decide_eq_true (Nat.lt_succ_of_lt h), Bool.true_and, Bool.and_true]

/-- The mask clears bit 15 (R96). -/
theorem aluNot_getLsbD_of_le (b : Word) {k : Nat} (h : 15 ≤ k) : (aluNot b).getLsbD k = false := by
  rw [aluNot_eq, BitVec.getLsbD_and, maxLiteral_getLsbD, decide_eq_false (Nat.not_lt.mpr h),
    Bool.and_false]

/-- The complement of the low 15 bits as a number (R96). -/
theorem aluNot_toNat (b : Word) : (aluNot b).toNat = 32767 - b.toNat % 32768 := by
  rw [aluNot_eq, and_maxLiteral_toNat, BitVec.toNat_not]
  omega

/-- `not` is its own inverse on 15-bit values. -/
theorem aluNot_aluNot {b : Word} (h : b.toNat ≤ 32767) : aluNot (aluNot b) = b := by
  refine BitVec.eq_of_toNat_eq ?_
  rw [aluNot_toNat, aluNot_toNat]
  omega

/-- `not` plus 1 is the additive inverse, for values above 32767 too. -/
theorem aluAdd_aluNot_one (b : Word) : aluAdd b (aluAdd (aluNot b) 1) = 0 := by
  have hone : (1 : Word).toNat = 1 := rfl
  have hzero : (0 : Word).toNat = 0 := rfl
  refine BitVec.eq_of_toNat_eq ?_
  rw [aluAdd_toNat, aluAdd_toNat, aluNot_toNat, hone, hzero]
  omega

/-- The wrap at 65536 is lost when the low 15 bits are kept, as 32768 divides 65536. -/
theorem aluAdd_eq_and (b c : Word) : aluAdd b c = (b + c) &&& 32767 := by
  refine BitVec.eq_of_toNat_eq ?_
  rw [aluAdd_toNat, and_maxLiteral_toNat, BitVec.toNat_add, Nat.mod_mod_of_dvd _ (by decide)]

theorem aluMult_eq_and (b c : Word) : aluMult b c = (b * c) &&& 32767 := by
  refine BitVec.eq_of_toNat_eq ?_
  rw [aluMult_toNat, and_maxLiteral_toNat, BitVec.toNat_mul, Nat.mod_mod_of_dvd _ (by decide)]

/-- The complement is the exclusive or with all ones. -/
theorem aluNot_eq_xor (b : Word) : aluNot b = (b ^^^ 65535) &&& 32767 :=
  congrArg (· &&& 32767) BitVec.xor_allOnes.symm

/-- Settles O56: 32768 divides 65536, so the 16-bit sum and product reduced are the exact ones
reduced, and the bounds and inverse laws hold of the ALU results as numbers. -/
theorem aluAgreesWithFixedWidth : Obligations.AluAgreesWithFixedWidth := by
  intro b c
  refine ⟨aluAdd_eq_and b c, aluMult_eq_and b c, aluNot_eq_xor b, ?_, ?_, ?_, fun hc => ?_,
    fun hb => ⟨aluNot_aluNot hb, aluAdd_aluNot_one b⟩⟩
  · rw [aluAdd_toNat]
    omega
  · rw [aluMult_toNat]
    omega
  · rw [aluNot_toNat]
    omega
  · have hne : c.toNat ≠ 0 := fun h => hc (BitVec.eq_of_toNat_eq h)
    refine ⟨aluMod_of_ne b hne, ?_⟩
    rw [BitVec.toNat_umod]
    exact Nat.mod_lt _ (Nat.pos_of_ne_zero hne)

/-! ### The instructions -/

/-- Settles O30: the result written is the sum of the ALU. -/
theorem addModulo32768 : Obligations.AddModulo32768 := by
  intro s a b c
  have hget := s.getReg_writeResult_same a (aluAdd (s.resolve b) (s.resolve c)) 4
  exact ⟨rfl, _, (Effect.add a b c).exec_eq, s.onlyResultWritten_writeResult a _ 4,
    (congrArg BitVec.toNat hget).trans (aluAdd_toNat _ _)⟩

/-- Settles O31: the result written is the product of the ALU. -/
theorem multModulo32768 : Obligations.MultModulo32768 := by
  intro s a b c
  have hget := s.getReg_writeResult_same a (aluMult (s.resolve b) (s.resolve c)) 4
  exact ⟨rfl, _, (Effect.mult a b c).exec_eq, s.onlyResultWritten_writeResult a _ 4,
    (congrArg BitVec.toNat hget).trans (aluMult_toNat _ _)⟩

/-- Settles O32: with a divisor other than 0, the result written is the remainder; with 0, the
fault. -/
theorem modRemainderOrDivideByZero : Obligations.ModRemainderOrDivideByZero := by
  intro s a b c
  have hget := s.getReg_writeResult_same a (s.resolve b % s.resolve c) 4
  exact ⟨rfl,
    fun hc => ⟨_, (Effect.mod a b c hc).exec_eq, s.onlyResultWritten_writeResult a _ 4,
      (congrArg BitVec.toNat hget).trans BitVec.toNat_umod⟩,
    fun hc => (Raises.mod a b c hc).exec_eq⟩

/-- Settles O33: the results written are the bitwise operations on the whole words. -/
theorem andOrAreBitwise : Obligations.AndOrAreBitwise := by
  intro s a b c
  have hand := s.getReg_writeResult_same a (aluAnd (s.resolve b) (s.resolve c)) 4
  have hor := s.getReg_writeResult_same a (aluOr (s.resolve b) (s.resolve c)) 4
  exact ⟨rfl, rfl,
    ⟨_, (Effect.and a b c).exec_eq, s.onlyResultWritten_writeResult a _ 4,
      fun k _ => (congrArg (·.getLsbD k) hand).trans BitVec.getLsbD_and⟩,
    ⟨_, (Effect.or a b c).exec_eq, s.onlyResultWritten_writeResult a _ 4,
      fun k _ => (congrArg (·.getLsbD k) hor).trans BitVec.getLsbD_or⟩⟩

/-- Settles O34: the result written is the complement, whose bits and number the ALU laws give. -/
theorem notComplementsFifteenBits : Obligations.NotComplementsFifteenBits := by
  intro s a b
  have hget := s.getReg_writeResult_same a (aluNot (s.resolve b)) 3
  exact ⟨rfl, _, (Effect.not a b).exec_eq, s.onlyResultWritten_writeResult a _ 3,
    fun k hk => (congrArg (·.getLsbD k) hget).trans (aluNot_getLsbD_of_lt _ hk),
    (congrArg (·.getLsbD 15) hget).trans (aluNot_getLsbD_of_le _ (le_refl 15)),
    (congrArg BitVec.toNat hget).trans (aluNot_toNat _)⟩

end Sys2Proof.Machine
end

section
/-! SUPPORT. The obligations of the memory-access family (46_memory_access.md): below 32768 `rmem`
ends with the word read written as its result and `wmem` with one word stored, so each is its effect
and the laws of that update; at 32768 and above each is its fault. -/

namespace Sys2Proof.Machine

/-- Settles O35: the result written is the word the port reads in the state before. -/
theorem rmemLoadsTheWord : Obligations.RmemLoadsTheWord := by
  intro s a b
  refine ⟨rfl, fun hb => ?_, fun hb => (Raises.rmem a b hb).exec_eq⟩
  have hlt : (s.resolve b).toNat < 32768 := Nat.lt_succ_of_le hb
  have hget := s.getReg_writeResult_same a (Memory.lookup s.mem (s.resolve b).toNat) 3
  exact ⟨_, (Effect.rmem a b hlt).exec_eq, s.onlyResultWritten_writeResult a _ 3,
    (s.memRead_of_lt hlt).trans (congrArg some hget.symm)⟩

/-- Settles O36: the store shows at its own address only, and the default signal moves `pc` only. -/
theorem wmemStoresTheWord : Obligations.WmemStoresTheWord := by
  intro s a b
  refine ⟨rfl, fun ha => ?_, fun ha => (Raises.wmem a b ha).exec_eq⟩
  have hlt : (s.resolve a).toNat < 32768 := Nat.lt_succ_of_le ha
  have hexec := (Effect.wmem a b hlt).exec_eq
  obtain ⟨hrun, hregs, hmem, hstk, hstreams⟩ :=
    (s.storeWord (s.resolve a).toNat (s.resolve b)).apply_frame_of_no_halt
      (sig := s.defaultSignal 3) rfl
  exact ⟨_, hexec, memRead_of_exec_wmem hlt hexec,
    fun addr hne => (hmem addr).trans (s.memRead_storeWord_other hne (s.resolve b)), rfl, hrun,
    hregs, hstk, hstreams⟩

end Sys2Proof.Machine
end

section
/-! SUPPORT. The obligations of the input and output family (47_io.md): `out` is its effect and the
laws of the output port; over a whole step, the streams move as the effect of the decoded instruction
moves them. -/

namespace Sys2Proof.Machine

/-! ### The streams under an effect (R101, R102) -/

section Streams

variable {s m : State} {i : Instr} {sig : Signal}

/-- The output is as before, or `out` appended the low byte of its operand (R100, R101). -/
theorem Effect.output_cases (h : Effect s i m sig) :
    m.output = s.output ∨
    ∃ a, i = .out a ∧ m.output = s.output ++ [lowByte (s.resolve a)] := by
  cases h with
  | out a => exact .inr ⟨a, rfl, rfl⟩
  | _ => exact .inl rfl

/-- The input is as before, or `in` took its first byte into the result register (R102, R103). -/
theorem Effect.input_cases (h : Effect s i m sig) :
    m.input = s.input ∨
    ∃ a b, i = .inp a ∧ s.input = b :: m.input ∧ m.getReg a.val = zextByte b := by
  cases h with
  | inp a hin => exact .inr ⟨a, _, rfl, hin, State.getReg_setReg_same _ a.isLt (zextByte _)⟩
  | _ => exact .inl rfl

end Streams

/-- Settles O50: a fault keeps both streams, so what moves is what the decoded instruction's effect
moves. -/
theorem streamsMoveByOutAndIn : Obligations.StreamsMoveByOutAndIn := by
  intro s t h
  rcases step_next h with rfl | ⟨kind, info, rfl⟩ | ⟨i, m, sig, hd, he, rfl⟩
  · exact ⟨.inl rfl, .inl rfl⟩
  · exact ⟨.inl rfl, .inl rfl⟩
  · constructor
    · rcases he.output_cases with hout | ⟨a, rfl, hout⟩
      · exact .inl hout
      · exact .inr ⟨a, lowByte (s.resolve a), hd, hout, lowByte_toNat (s.resolve a)⟩
    · rcases he.input_cases with hin | ⟨a, b, rfl, hin, hget⟩
      · exact .inl hin
      · exact .inr ⟨a, b, hd, hin, (congrArg BitVec.toNat hget).trans (zextByte_toNat b)⟩

/-- Settles O37: the output port appends the low byte and nothing else moves, and the default signal
moves `pc` only. -/
theorem outAppendsLowByte : Obligations.OutAppendsLowByte := by
  intro s a
  obtain ⟨hrun, hregs, hmem, hstk, hin, hout⟩ :=
    (s.outByte (lowByte (s.resolve a))).apply_frame_of_no_halt (sig := s.defaultSignal 2) rfl
  exact ⟨rfl, _, (Effect.out a).exec_eq,
    ⟨lowByte (s.resolve a), hout, lowByte_toNat (s.resolve a)⟩, hin, rfl, hrun, hregs, hmem, hstk⟩

end Sys2Proof.Machine
end

section
/-! SUPPORT. Laws the exception family rests on: why decoding at an address refuses and with what
record, which faults a step of a running machine can record, and that each agrees with its kind. -/

namespace Sys2Proof

/-- A format refuses too few words, by its own count, or a bad operand word (R60). -/
theorem Format.decode_error {f : Format} {ws : List Word} {e : DecodeError}
    (h : f.decode ws = .error e) : FormatError f.count ws e := by
  cases f with
  | z => cases h
  | s => exact decodeS_error h
  | r => exact decodeR_error h
  | rs => exact decodeRS_error h
  | ss => exact decodeSS_error h
  | rss => exact decodeRSS_error h

/-- An opcode word of 22 or more is refused as unknown, and a known one by the operand count that R56
lists for it. -/
theorem decodeOp_error_count {op : Word} {ws : List Word} {e : DecodeError}
    (h : decodeOp op ws = .error e) :
    (e = .unknownOpcode op ∧ 22 ≤ op.toNat) ∨
    ∃ n, Machine.operandCounts[op.toNat]? = some n ∧ FormatError n ws e := by
  rcases Nat.lt_or_ge op.toNat 22 with hlt | hge
  · have hf := List.getElem?_eq_getElem (l := opcodeFormats) hlt
    rw [decodeOp_of_opcodeFormat hf] at h
    refine .inr ⟨_, ?_, Format.decode_error h⟩
    rw [operandCounts_eq, List.getElem?_map, hf, Option.map_some]
  · rw [decodeOp_unknown hge] at h
    exact .inl ⟨(Except.error.inj h).symm, hge⟩

/-- No opcode has more than three operands (R51, R56). -/
theorem operandCount_le {k n : Nat} (h : Machine.operandCounts[k]? = some n) : n ≤ 3 := by
  obtain ⟨f, -, rfl⟩ := opcodeFormat_of_count h
  exact f.count_le

namespace Machine

/-! ### Decode faults (R105 to R109) -/

/-- Only an address below 32768 is readable (R34). -/
theorem Memory.lt_of_read {m : Memory} {a : Nat} {w : Word} (h : Memory.read m a = some w) :
    a < 32768 := by
  by_contra hge
  rw [Memory.read_of_le m (Nat.not_lt.mp hge)] at h
  cases h

/-- The operand words after an opcode at `p` are too few for `n` exactly when the last of the `n`
would lie outside memory (R66, R106). -/
theorem Memory.window_length_lt_iff {m : Memory} {p n : Nat} (hp : p < 32768) (hn : n ≤ 3) :
    (Memory.window m 3 (p + 1)).length < n ↔ 32768 ≤ p + n := by
  rw [Memory.window_length]
  omega

/-- The first missing operand word is the one at 32768, whichever operand that is (R66, R106). -/
theorem decodeFault_truncatedOperand {m : Memory} {p : Word} {n : Nat} (hp : p.toNat < 32768)
    (hn : n ≤ 3) (h : (Memory.window m 3 (p.toNat + 1)).length < n) :
    decodeFault p (.truncatedOperand ((Memory.window m 3 (p.toNat + 1)).length + 1)) =
      (.truncatedOperand, 32768) := by
  have hsum : p.toNat + ((Memory.window m 3 (p.toNat + 1)).length + 1) = 32768 := by
    rw [Memory.window_length] at h ⊢
    omega
  rw [decodeFault, hsum]
  rfl

/-- The faults of decoding at `p` (R104): when each arises, and with what `info`. -/
inductive DecodeRaises (m : Memory) (p : Word) : Fault → Word → Prop where
  | addressOutOfRange (h : 32768 ≤ p.toNat) : DecodeRaises m p .addressOutOfRange p
  | unknownOpcode {op} (hop : Memory.read m p.toNat = some op) (h : 22 ≤ op.toNat) :
      DecodeRaises m p .unknownOpcode op
  | truncatedOperand {op n} (hop : Memory.read m p.toNat = some op)
      (hn : operandCounts[op.toNat]? = some n) (h : 32768 ≤ p.toNat + n) :
      DecodeRaises m p .truncatedOperand 32768
  | nonRegisterResult {w} (h : w.toNat ≤ 32767) : DecodeRaises m p .nonRegisterResult w
  | invalidOperand {w} (h : 32776 ≤ w.toNat) : DecodeRaises m p .invalidOperand w

/-- What refuses the words from a readable opcode word on is a decode fault at its address. -/
theorem DecodeRaises.of_decodeOp {m : Memory} {p op : Word} {e : DecodeError}
    (hop : Memory.read m p.toNat = some op)
    (h : decodeOp op (Memory.window m 3 (p.toNat + 1)) = .error e) :
    DecodeRaises m p (decodeFault p e).1 (decodeFault p e).2 := by
  rcases decodeOp_error_count h with ⟨rfl, hge⟩ | ⟨n, hn, ⟨rfl, hlen⟩ | he⟩
  · exact .unknownOpcode hop hge
  · have hp := Memory.lt_of_read hop
    have hle := operandCount_le hn
    rw [decodeFault_truncatedOperand hp hle hlen]
    exact .truncatedOperand hop hn ((Memory.window_length_lt_iff hp hle).mp hlen)
  · cases he with
    | invalid hw => exact .invalidOperand hw
    | nonRegister hw => exact .nonRegisterResult hw

/-- Decoding at `p` answers no other fault: with `p` outside memory it is the fetch's own, and else
the words from `p` on are refused (R60, R66). -/
theorem Memory.decodeAt_error {m : Memory} {p : Word} {kind : Fault} {info : Word}
    (h : Memory.decodeAt m p = .error (kind, info)) : DecodeRaises m p kind info := by
  rcases Nat.lt_or_ge p.toNat 32768 with hp | hp
  · have hop := Memory.read_of_lt m hp
    rw [Memory.decodeAt, Memory.window_of_read hop, decodeWords] at h
    cases hd : decodeOp (Memory.lookup m p.toNat) (Memory.window m 3 (p.toNat + 1)) with
    | ok r =>
      rw [hd] at h
      cases h
    | error e =>
      rw [hd] at h
      have hr := DecodeRaises.of_decodeOp hop hd
      rwa [Except.error.inj h] at hr
  · rw [Memory.decodeAt, Memory.window, Memory.read_of_le m hp] at h
    cases h
    exact .addressOutOfRange hp

/-! ### Which faults a step records (R73, R104) -/

/-- A fault that a running machine's step records comes from decoding at `pc`, or from the execution
of the instruction decoded there: an instruction that completes records none. -/
theorem step_faulted {s t : State} {kind : Fault} {info : Word} (hr : s.run = .running)
    (h : step s = .next t) (ht : t.run = .faulted kind info) :
    DecodeRaises s.mem s.pc kind info ∨
    ∃ i, Memory.decodeAt s.mem s.pc = .ok i ∧ Raises s i kind info := by
  rcases step_cases s with ⟨hstop, -⟩ | ⟨kind', info', -, hd, h'⟩ | ⟨i, -, hd, h'⟩
  · exact absurd hr hstop
  · obtain rfl := Host.Outcome.next.inj (h'.symm.trans h)
    cases ht
    exact .inl (Memory.decodeAt_error hd)
  · rcases exec_next (h'.symm.trans h) with ⟨m, sig, he, rfl⟩ | ⟨kind', info', hf, rfl⟩ |
      ⟨-, -, rfl⟩
    · exact absurd ht (he.run_ne_faulted hr kind info)
    · cases ht
      exact .inr ⟨i, hd, hf⟩
    · cases hr.symm.trans ht

/-! ### The record agrees with its kind (the `info` column of R104's table) -/

theorem DecodeRaises.faultRecordInv {m : Memory} {p : Word} {kind : Fault} {info : Word}
    (h : DecodeRaises m p kind info) {t : State} (ht : t.run = .faulted kind info) :
    FaultRecordInv t := by
  unfold FaultRecordInv
  rw [ht]
  cases h with
  | addressOutOfRange h | unknownOpcode _ h | nonRegisterResult h | invalidOperand h => exact h
  | truncatedOperand => rfl

theorem Raises.faultRecordInv {s : State} {i : Instr} {kind : Fault} {info : Word}
    (h : Raises s i kind info) {t : State} (ht : t.run = .faulted kind info) :
    FaultRecordInv t := by
  unfold FaultRecordInv
  rw [ht]
  cases h with
  | pop | mod => rfl
  | rmem a b h | wmem a b h => exact h

/-- Without a fault there is nothing to agree with. -/
theorem faultRecordInv_of_not_faulted {t : State} (h : ∀ kind info, t.run ≠ .faulted kind info) :
    FaultRecordInv t := by
  unfold FaultRecordInv
  cases ht : t.run with
  | running | halted => trivial
  | faulted kind info => exact absurd ht (h kind info)

end Machine

end Sys2Proof
end

section
/-! SUPPORT. The obligations of the exception family (60_exceptions.md), each from the causes of the
decode faults and of the execution faults. -/

namespace Sys2Proof.Machine

/-- Settles O43: a stopped machine keeps its record, and a fault that a running one records is a decode
fault or an execution fault, each with an `info` its kind admits. -/
theorem faultRecordStaysLegal : Obligations.FaultRecordStaysLegal := by
  intro s t hinv h
  by_cases hr : s.run = .running
  · by_cases hf : ∃ kind info, t.run = .faulted kind info
    · obtain ⟨kind, info, ht⟩ := hf
      rcases step_faulted hr h ht with hf | ⟨i, -, hf⟩
      · exact hf.faultRecordInv ht
      · exact hf.faultRecordInv ht
    · exact faultRecordInv_of_not_faulted fun kind info ht => hf ⟨kind, info, ht⟩
  · obtain rfl := Host.Outcome.next.inj ((step_of_stopped hr).symm.trans h)
    exact hinv

/-- Settles O12: the words up to the end of memory are too few for the opcode's format, and no other
fault is recorded as truncated. -/
theorem truncatedOperandFaults : Obligations.TruncatedOperandFaults := by
  refine ⟨fun s op n hr hop hn hend => ?_, fun s t info hr h ht => ?_⟩
  · obtain ⟨f, hf, rfl⟩ := opcodeFormat_of_count hn
    have hp := Memory.lt_of_read hop
    have hlen := (Memory.window_length_lt_iff (m := s.mem) hp f.count_le).mpr hend
    have hd := Format.decode_of_length_lt hlen
    rw [← decodeOp_of_opcodeFormat hf] at hd
    rw [step_of_decode_error hr hop hd, decodeFault_truncatedOperand hp f.count_le hlen]
  · obtain hf | ⟨i, -, ⟨⟩⟩ := step_faulted hr h ht
    cases hf with
    | truncatedOperand hop hn hend =>
      have hp := Memory.lt_of_read hop
      have hle := operandCount_le hn
      exact ⟨rfl, by omega, by omega, _, _, hop, hn, hend⟩

/-- Settles O14: among the faults a step can record, each of these kinds has one cause, and
`AddressOutOfRange` three. -/
theorem executionFaultsHaveTheirCause : Obligations.ExecutionFaultsHaveTheirCause := by
  intro s t info hr h
  refine ⟨fun ht => ?_, fun ht => ?_, fun ht => ?_⟩
  · rcases step_faulted hr h ht with hf | ⟨i, hd, hf⟩
    · cases hf
    · cases hf with
      | pop a hs => exact ⟨rfl, hs, a, hd⟩
  · rcases step_faulted hr h ht with hf | ⟨i, hd, hf⟩
    · cases hf
    · cases hf with
      | mod a b c hc => exact ⟨rfl, a, b, c, hd, BitVec.eq_of_toNat_eq hc⟩
  · rcases step_faulted hr h ht with hf | ⟨i, hd, hf⟩
    · cases hf with
      | addressOutOfRange hp => exact ⟨hp, .inl rfl⟩
    · cases hf with
      | rmem a b hb => exact ⟨hb, .inr (.inl ⟨a, b, hd, rfl⟩)⟩
      | wmem a b ha => exact ⟨ha, .inr (.inr ⟨a, b, hd, rfl⟩)⟩

/-- Settles O10: the fetch's fault at a bad `pc`, and the execution faults of `rmem` and `wmem`. -/
theorem addressOutOfRangeFaults : Obligations.AddressOutOfRangeFaults :=
  ⟨fun _ => step_of_pc_ge, fun _ a b hb => (Raises.rmem a b hb).exec_eq,
    fun _ a b ha => (Raises.wmem a b ha).exec_eq⟩

/-- Settles O11: the opcode word alone is refused, before any operand word is looked at. -/
theorem unknownOpcodeFaults : Obligations.UnknownOpcodeFaults :=
  fun _ _ hr hop h => step_of_unknownOpcode hr hop h

end Sys2Proof.Machine
end
